-- ==== Sys2Proof/Word.lean ====
section
/-! DEFINITION. The widths of the interruptions controller, each under the name of what it holds. -/

namespace Sys2Proof

/-- One colour channel of a pixel word (`00_scope.md` R9, CHANNEL_BITS). -/
abbrev Byte := BitVec 8

/-- A time in ms, TS_WIDTH = 32 bits (`00_scope.md` R8). -/
abbrev Timestamp := BitVec 32

/-- A raw UQ1.16 channel operand of ENCODE: `v` stands for `v / 65536` (`00_scope.md` R11, `30_encoding.md` R44). -/
abbrev Channel := BitVec 17

/-- One word of the output stream (`00_scope.md` R9, PIXEL_WORD_BITS; `30_encoding.md` R47). -/
abbrev PixelWord := BitVec 32

/-- One EV64 event word (`30_encoding.md` R41). -/
abbrev EventWord := BitVec 64

/-- The 4-bit registers that hold a digit: `counter` and `frame_digit` (`10_state.md` R12). -/
abbrev DigitReg := BitVec 4

/-- The 5-bit register `frame_idx` (`10_state.md` R12). -/
abbrev IdxReg := BitVec 5

end Sys2Proof
end

