-- ==== Sys2Proof/Syntax.lean ====
section
/-! DEFINITION. The seven events of the EV64 interface, one constructor per row of spec/opcode_table.json. -/

namespace Sys2Proof

/-- An event with its operands (`30_encoding.md` R42, R43). The operands' types are their fields' widths, so every
term is well formed; WellFormed.lean has the check that numbers written in a text must pass to become one. -/
inductive Instr where
  /-- EDGE_A, format T: a falling edge on button line A at time `ts`. -/
  | edgeA (ts : Timestamp)
  /-- EDGE_B, format T: a falling edge on button line B at time `ts`. -/
  | edgeB (ts : Timestamp)
  /-- TICK, format T: evaluate the heartbeat at time `ts`. -/
  | tick (ts : Timestamp)
  /-- FRAME, format N: start a frame. -/
  | frame
  /-- ACCEPT, format N: the transport takes the presented word. -/
  | accept
  /-- ENCODE, format C: encode one colour on the test port, in the order green, red, blue (`90_conflicts.md` C7). -/
  | encode (g r b : Channel)
  /-- RESET, format N: the external reset event. -/
  | reset
  deriving DecidableEq, Repr

end Sys2Proof
end

