-- ==== Sys2Proof/WellFormed.lean ====
section
/-! DEFINITION. Mnemonics, and the check that an event written with plain numbers is an event:
each operand must fit its field (`30_encoding.md` R44, R49). -/

namespace Sys2Proof

/-- The mnemonics of `30_encoding.md` R43. -/
inductive Mnemonic where
  | edgeA | edgeB | tick | frame | accept | encode | reset
  deriving DecidableEq, Repr

def Instr.mnemonic : Instr → Mnemonic
  | .edgeA _ => .edgeA
  | .edgeB _ => .edgeB
  | .tick _ => .tick
  | .frame => .frame
  | .accept => .accept
  | .encode _ _ _ => .encode
  | .reset => .reset

/-- An event as a text writes it: a mnemonic and its operands as plain numbers, not yet checked. -/
structure RawEvent where
  mnemonic : Mnemonic
  operands : List Nat
  deriving DecidableEq, Repr

/-- "A `ts` must be below 2^32" (`30_encoding.md` R49). -/
def fitsTimestamp (n : Nat) : Bool := n < 2 ^ 32

/-- "and a channel below 2^17" (`30_encoding.md` R49). -/
def fitsChannel (n : Nat) : Bool := n < 2 ^ 17

/-- The event takes its mnemonic's number of operands and each fits its field (`30_encoding.md` R42, R49). -/
def RawEvent.wellFormed (e : RawEvent) : Bool :=
  match e.mnemonic, e.operands with
  | .edgeA, [ts] => fitsTimestamp ts
  | .edgeB, [ts] => fitsTimestamp ts
  | .tick, [ts] => fitsTimestamp ts
  | .frame, [] => true
  | .accept, [] => true
  | .encode, [g, r, b] => fitsChannel g && fitsChannel r && fitsChannel b
  | .reset, [] => true
  | _, _ => false

/-- The operands of an event as plain numbers, in the order of its text form. -/
def Instr.operands : Instr → List Nat
  | .edgeA ts => [ts.toNat]
  | .edgeB ts => [ts.toNat]
  | .tick ts => [ts.toNat]
  | .frame => []
  | .accept => []
  | .encode g r b => [g.toNat, r.toNat, b.toNat]
  | .reset => []

/-- The event as a text writes it. -/
def Instr.toRaw (i : Instr) : RawEvent := { mnemonic := i.mnemonic, operands := i.operands }

end Sys2Proof
end

