-- ==== Sys2Proof/Decode.lean ====
section
/-! DEFINITION. The EV64 decoder, total on every word and refusing by reason, then the opcode table, the encoder,
event words carried as bytes, and events from checked text operands (`30_encoding.md` R41 to R46, R49; `20_memory.md` R30). -/

namespace Sys2Proof

/-- Why a word spells no event (`30_encoding.md` R46). -/
inductive IllegalReason where
  /-- `ILLEGAL_OP`: op is 0x0 or in 0x8..0xF. -/
  | illegalOp
  /-- `RESERVED_NONZERO`: a reserved bit of the format is set. -/
  | reservedNonzero
  deriving DecidableEq, Repr

/-- What the decoder makes of one word: exactly one event, or exactly one reason (`30_encoding.md` R46). -/
inductive Decoded where
  | event (i : Instr)
  | refuse (reason : IllegalReason)
  deriving DecidableEq, Repr

/-- `w[63:60]` (`30_encoding.md` R41). -/
def opField (w : EventWord) : BitVec 4 := w.extractLsb' 60 4

/-- Reserved bits 59:32 of format T (`30_encoding.md` R42). -/
def reservedT (w : EventWord) : BitVec 28 := w.extractLsb' 32 28

/-- Reserved bits 59:0 of format N (`30_encoding.md` R42). -/
def reservedN (w : EventWord) : BitVec 60 := w.extractLsb' 0 60

/-- Reserved bits 59:51 of format C (`30_encoding.md` R42). -/
def reservedC (w : EventWord) : BitVec 9 := w.extractLsb' 51 9

/-- `ts = w[31:0]` (`30_encoding.md` R44). -/
def tsField (w : EventWord) : Timestamp := w.extractLsb' 0 32

/-- `g = w[50:34]` (`30_encoding.md` R44). -/
def gField (w : EventWord) : Channel := w.extractLsb' 34 17

/-- `r = w[33:17]` (`30_encoding.md` R44). -/
def rField (w : EventWord) : Channel := w.extractLsb' 17 17

/-- `b = w[16:0]` (`30_encoding.md` R44). -/
def bField (w : EventWord) : Channel := w.extractLsb' 0 17

/-- An event of format T, once its opcode is known. -/
def decodeT (event : Timestamp → Instr) (w : EventWord) : Decoded :=
  if reservedT w ≠ 0 then .refuse .reservedNonzero else .event (event (tsField w))

/-- An event of format N, once its opcode is known. -/
def decodeN (event : Instr) (w : EventWord) : Decoded :=
  if reservedN w ≠ 0 then .refuse .reservedNonzero else .event event

/-- ENCODE, the one event of format C. -/
def decodeC (w : EventWord) : Decoded :=
  if reservedC w ≠ 0 then .refuse .reservedNonzero else .event (.encode (gField w) (rField w) (bField w))

/-- `Decode(w)` (`30_encoding.md` R43, R46). `ILLEGAL_OP` comes first: a word of an illegal opcode has no format, so
no reserved bits are looked at. -/
def decode (w : EventWord) : Decoded :=
  if opField w = 0x1 then decodeT .edgeA w
  else if opField w = 0x2 then decodeT .edgeB w
  else if opField w = 0x3 then decodeT .tick w
  else if opField w = 0x4 then decodeN .frame w
  else if opField w = 0x5 then decodeN .accept w
  else if opField w = 0x6 then decodeC w
  else if opField w = 0x7 then decodeN .reset w
  else .refuse .illegalOp

/-- One row of the opcode map (`30_encoding.md` R43). -/
structure OpcodeRow where
  mnemonic : Mnemonic
  pattern : EventWord
  mask : EventWord
  deriving DecidableEq, Repr

/-- The opcode map, as `30_encoding.md` R43 prints it. -/
def opcodeTable : List OpcodeRow :=
  [ { mnemonic := .edgeA, pattern := 0x1000000000000000, mask := 0xFFFFFFFF00000000 },
    { mnemonic := .edgeB, pattern := 0x2000000000000000, mask := 0xFFFFFFFF00000000 },
    { mnemonic := .tick, pattern := 0x3000000000000000, mask := 0xFFFFFFFF00000000 },
    { mnemonic := .frame, pattern := 0x4000000000000000, mask := 0xFFFFFFFFFFFFFFFF },
    { mnemonic := .accept, pattern := 0x5000000000000000, mask := 0xFFFFFFFFFFFFFFFF },
    { mnemonic := .encode, pattern := 0x6000000000000000, mask := 0xFFF8000000000000 },
    { mnemonic := .reset, pattern := 0x7000000000000000, mask := 0xFFFFFFFFFFFFFFFF } ]

/-- "A word `w` spells mnemonic M when `w AND mask(M) = match(M)`" (`30_encoding.md` R43). -/
def OpcodeRow.spelledBy (row : OpcodeRow) (w : EventWord) : Bool := w &&& row.mask = row.pattern

/-- The word of a format T event. -/
def encodeT (op : BitVec 4) (ts : Timestamp) : EventWord := op ++ (0#28 ++ ts)

/-- The word of a format N event. -/
def encodeN (op : BitVec 4) : EventWord := op ++ 0#60

/-- The word of a format C event. -/
def encodeC (op : BitVec 4) (g r b : Channel) : EventWord := op ++ (0#9 ++ (g ++ (r ++ b)))

/-- The word of an event (`30_encoding.md` R42, R43). -/
def encode : Instr → EventWord
  | .edgeA ts => encodeT 0x1 ts
  | .edgeB ts => encodeT 0x2 ts
  | .tick ts => encodeT 0x3 ts
  | .frame => encodeN 0x4
  | .accept => encodeN 0x5
  | .encode g r b => encodeC 0x6 g r b
  | .reset => encodeN 0x7

/-- An event word as a test bench carries it: eight bytes, bits 63:56 first (`20_memory.md` R30). -/
def bytesOfWord (w : EventWord) : List Byte :=
  [w.extractLsb' 56 8, w.extractLsb' 48 8, w.extractLsb' 40 8, w.extractLsb' 32 8,
   w.extractLsb' 24 8, w.extractLsb' 16 8, w.extractLsb' 8 8, w.extractLsb' 0 8]

/-- The next event word of a byte stream and the bytes after it, the most significant byte first (`20_memory.md` R30).
Fewer than eight bytes hold no whole word yet (notes/assumptions/12.md). -/
def wordOfBytes : List Byte → Option (EventWord × List Byte)
  | b7 :: b6 :: b5 :: b4 :: b3 :: b2 :: b1 :: b0 :: rest =>
    some (b7 ++ (b6 ++ (b5 ++ (b4 ++ (b3 ++ (b2 ++ (b1 ++ b0)))))), rest)
  | _ => none

/-- What the decoder makes of the next event word of a byte stream, and the bytes after it. -/
def decodeBytes (bytes : List Byte) : Option (Decoded × List Byte) :=
  (wordOfBytes bytes).map fun (w, rest) => (decode w, rest)

/-- The event word whose low `nbits` bits are `w` and whose other bits are 0. -/
def tableWord (nbits w : Nat) : EventWord := BitVec.ofNat 64 (w % 2 ^ nbits)

/-- The event the decoder reads from the word whose low `nbits` bits are `w`, laid out as bytes and read back. -/
def decodeTableWord (nbits w : Nat) : Option Instr :=
  match decodeBytes (bytesOfWord (tableWord nbits w)) with
  | some (.event i, _) => some i
  | _ => none

/-- The event a text means, or nothing where an operand does not fit its field or the operands are too few or too many:
"An assembler refuses an operand that does not fit its field" (`30_encoding.md` R49). -/
def RawEvent.toInstr (e : RawEvent) : Option Instr :=
  if e.wellFormed then
    match e.mnemonic, e.operands with
    | .edgeA, [ts] => some (.edgeA (BitVec.ofNat 32 ts))
    | .edgeB, [ts] => some (.edgeB (BitVec.ofNat 32 ts))
    | .tick, [ts] => some (.tick (BitVec.ofNat 32 ts))
    | .frame, [] => some .frame
    | .accept, [] => some .accept
    | .encode, [g, r, b] => some (.encode (BitVec.ofNat 17 g) (BitVec.ofNat 17 r) (BitVec.ofNat 17 b))
    | .reset, [] => some .reset
    | _, _ => none
  else none

end Sys2Proof
end

