-- ==== Sys2Proof/Config.lean ====
section
/-! DEFINITION. What is fixed when the block is built, the parameters the spec leaves open, and the free values. -/

namespace Sys2Proof

/-- DEBOUNCE_WINDOW, in ms (`00_scope.md` R4). -/
def Config.debounceWindow : Nat := 400

/-- HEARTBEAT_PERIOD, in ms (`00_scope.md` R5). -/
def Config.heartbeatPeriod : Nat := 100

/-- CHANNEL_FRAC_BITS: an ENCODE operand is UQ1.16 (`41_pixel_encoder.md` R54). -/
def Config.channelFracBits : Nat := 16

/-- The open parameters that a rule reads, as one argument: BRIGHTNESS, an integer in 0..255 (`00_scope.md` R6),
and GLYPH as the linear ROM of `20_memory.md` R26, bit `d*25 + r*5 + c` being `GLYPH[d][r][c]` (`00_scope.md` R7). -/
structure Params where
  brightness : BitVec 8
  glyph : BitVec 250
  deriving DecidableEq, Repr

/-- BRIGHTNESS of the block at hand. No body: no source gives a value, and none may be assumed
(`00_scope.md` R6; notes/assumptions/5.md). -/
opaque Config.brightness : BitVec 8

/-- GLYPH of the block at hand. No body: no source gives a bit, and none may be assumed
(`00_scope.md` R7; notes/assumptions/5.md). -/
opaque Config.glyph : BitVec 250

/-- The parameters of the block at hand. -/
def Config.built : Params := { brightness := Config.brightness, glyph := Config.glyph }

/-- FREE VALUE: the word presented while `frame_digit` or `frame_idx` holds an illegal value, for which
`43_digit_compositor.md` R70 and `42_matrix_renderer.md` R62 give none. Its argument is State's `draw`
(notes/assumptions/7.md). -/
opaque Config.freePixelWord : Nat → PixelWord

/-- FREE VALUE: `frame_idx` after an ACCEPT at `frame_idx = 31`, where `frame_idx + 1` does not fit its 5 bits and
`00_scope.md` R10 rules silent truncation out. Its argument is State's `draw` (notes/assumptions/8.md). -/
opaque Config.freeFrameIdx : Nat → IdxReg

end Sys2Proof
end

