-- ==== Sys2Proof/Machine/State.lean ====
section
/-! DEFINITION. The controller's whole state as plain data, its faults and refusals, and the state after power-on
(`10_state.md` R12, R20, R24; `60_exceptions.md` R80). -/

namespace Sys2Proof.Machine

/-- The two buttons, each with a debounce state machine of its own (`44_input_debouncer.md` R71). -/
inductive Button where
  | a | b
  deriving DecidableEq, Repr

/-- The kinds of fault a record can hold: "The only fault kind is `DIGIT_RANGE`" (`10_state.md` R20). -/
inductive FaultKind where
  /-- `DIGIT_RANGE`: FRAME with `counter > 9` while no frame is in flight (`42_matrix_renderer.md` R63). -/
  | digitRange
  deriving DecidableEq, Repr

/-- The complete state (`10_state.md` R12), and after it the model's own fields `hist`, `events` and `draw`, which are
no block state. -/
structure State where
  /-- The displayed digit, 4 bits, legal values 0..9 (R13, R14). -/
  counter : DigitReg
  /-- Whether an edge of button A has been accepted since reset (R15). -/
  seenA : Bool
  /-- Whether an edge of button B has been accepted since reset (R15). -/
  seenB : Bool
  /-- Time of button A's last accepted edge (R16). -/
  lastA : Timestamp
  /-- Time of button B's last accepted edge (R16). -/
  lastB : Timestamp
  /-- The heartbeat's on/off flag (R17). -/
  hbFlag : Bool
  /-- Time of the last heartbeat toggle (R17). -/
  hbLast : Timestamp
  /-- A frame is in flight (R18). -/
  frameBusy : Bool
  /-- Chain position of the word now presented, legal values 0..24 (R18). -/
  frameIdx : IdxReg
  /-- The digit sampled when the frame began, legal values 0..9 (R18). -/
  frameDigit : DigitReg
  /-- Result register of the ENCODE test port (R19). -/
  encWord : PixelWord
  /-- The record of faults, oldest first (R20). The spec's own model-only field: nothing removes an entry. -/
  fault : List FaultKind
  /-- The model's: the output history, oldest word first (`42_matrix_renderer.md` R64; notes/assumptions/3.md). -/
  hist : List PixelWord
  /-- The model's: the event words still to come, next one first (`00_scope.md` R2; notes/assumptions/1.md). -/
  events : List EventWord
  /-- The model's: how many free values have been drawn (notes/assumptions/7.md). -/
  draw : Nat
  deriving DecidableEq, Repr

/-- The state at power-on (`10_state.md` R24, `70_reset_and_hazards.md` R93). The spec gives every value but those of
the model's own `hist`, `events` and `draw` (notes/assumptions/1.md, 3.md and 7.md). -/
def State.reset : State where
  counter := 0
  seenA := false
  seenB := false
  lastA := 0
  lastB := 0
  hbFlag := false
  hbLast := 0
  frameBusy := false
  frameIdx := 0
  frameDigit := 0
  encWord := 0
  fault := []
  hist := []
  events := []
  draw := 0

/-- The faults a step can end in. -/
inductive Fault where
  /-- `DIGIT_RANGE`, raised by FRAME alone, when no frame is in flight and `counter > 9` (`60_exceptions.md` R80). It
  carries the state it leaves: the fault recorded and nothing else changed (`10_state.md` R20). Safe: the spec itself
  ends the step in this fault. -/
  | digitRange (left : State)
  deriving DecidableEq, Repr

/-- The refusals a step can end in. -/
inductive Refusal where
  /-- Raised by exec for an instruction that has no meaning yet. No instruction of this model is left so. Safe. -/
  | notModelled (mnemonic : String)
  /-- `ILLEGAL_OP`, raised by the decoder (`60_exceptions.md` R80, `30_encoding.md` R46). Safe: the spec gives such a
  word no meaning. -/
  | illegalOp
  /-- `RESERVED_NONZERO`, raised by the decoder (`60_exceptions.md` R80, `30_encoding.md` R46). Safe: the spec gives
  such a word no meaning. -/
  | reservedNonzero
  deriving DecidableEq, Repr

/-- What a step of this machine answers: exactly one of three outcomes (`00_scope.md` R3). -/
abbrev Result := Host.Outcome State Fault Refusal

end Sys2Proof.Machine
end

