-- ==== Sys2Proof/Machine/Operands.lean ====
section
/-! DEFINITION. The operand forms of the events: time stamps and their modular difference (`00_scope.md` R8, R10),
and colour channels, exact (`41_pixel_encoder.md` R51 to R53) and as UQ1.16 operands (R54). -/

namespace Sys2Proof.Machine

/-- `(now - last) mod 2^32`, in ms (`44_input_debouncer.md` R72, `45_heartbeat.md` R77). -/
def elapsed (now last : Timestamp) : Timestamp := now - last

/-- `clamp01(q) = min(max(q, 0), 1)` (`00_scope.md` R10). -/
def clamp01 (q : ℚ) : ℚ := min (max q 0) 1

/-- `Byte(c) = floor(clamp01(c) * 255)`: exact rational arithmetic, truncated and never rounded (`41_pixel_encoder.md`
R51, R53). The result lies in 0..255, so it fits. -/
def byteOf (c : ℚ) : Byte := BitVec.ofNat 8 ⌊clamp01 c * 255⌋.toNat

/-- The format of a pixel word: 0, green, red, blue from the most significant byte down (`30_encoding.md` R47). -/
def packGRB (g r b : Byte) : PixelWord := g.setWidth 32 <<< 16 ||| r.setWidth 32 <<< 8 ||| b.setWidth 32

/-- `Encode(g, r, b)` of three exact channel values (`41_pixel_encoder.md` R52). -/
def encodeColour (g r b : ℚ) : PixelWord := packGRB (byteOf g) (byteOf r) (byteOf b)

/-- The rational a UQ1.16 operand stands for (`30_encoding.md` R44). -/
def channelValue (v : Channel) : ℚ := (v.toNat : ℚ) / (2 ^ Config.channelFracBits : ℕ)

/-- `ByteQ(v) = (min(v, 65536) * 255) >> 16` (`41_pixel_encoder.md` R54). -/
def byteQ (v : Channel) : Byte :=
  BitVec.ofNat 8 ((min v.toNat (2 ^ Config.channelFracBits) * 255) >>> Config.channelFracBits)

end Sys2Proof.Machine
end

