-- ==== Sys2Proof/Machine/Ops.lean ====
section
/-! DEFINITION. The named operations over the state that the meanings share: the debounce registers of a button, the
saturating counter, raising a fault, refusing a word, and the glyph ROM. -/

namespace Sys2Proof.Machine

/-- `S.seen_X` (`10_state.md` R15). -/
def State.seen (s : State) : Button → Bool
  | .a => s.seenA
  | .b => s.seenB

/-- `S.last_X` (`10_state.md` R16). -/
def State.last (s : State) : Button → Timestamp
  | .a => s.lastA
  | .b => s.lastB

/-- `S.last_X <- t; S.seen_X <- 1` (`44_input_debouncer.md` R74). -/
def State.markAccepted (s : State) (x : Button) (t : Timestamp) : State :=
  match x with
  | .a => { s with seenA := true, lastA := t }
  | .b => { s with seenB := true, lastB := t }

/-- The effect of an accepted edge of A: up by one below 9, else unchanged (`44_input_debouncer.md` R75). -/
def State.countUp (s : State) : State :=
  if s.counter.toNat < 9 then { s with counter := s.counter + 1 } else s

/-- The effect of an accepted edge of B: down by one above 0, else unchanged (`44_input_debouncer.md` R76). -/
def State.countDown (s : State) : State :=
  if s.counter.toNat > 0 then { s with counter := s.counter - 1 } else s

/-- The fault's kind appended to the record and no other change (`10_state.md` R20). -/
def State.recordFault (s : State) (k : FaultKind) : State := { s with fault := s.fault ++ [k] }

/-- `raise Fault(kind)`: taking a fault. The step ends in the fault outcome, which carries the state it leaves. There is
no vector, no saved state and no return (`00_scope.md` R3, `60_exceptions.md` R80, R82, R83; notes/assumptions/4.md). -/
def raiseFault (k : FaultKind) (s : State) : Result :=
  match k with
  | .digitRange => .fault (.digitRange (s.recordFault .digitRange))

/-- `refuse(reason)`: the refusal outcome of a word that spells no event (`00_scope.md` R3, `60_exceptions.md` R80). -/
def refusalOf : IllegalReason → Refusal
  | .illegalOp => .illegalOp
  | .reservedNonzero => .reservedNonzero

/-- The state with another list of events still to come (notes/assumptions/1.md). -/
def State.withEvents (s : State) (es : List EventWord) : State := { s with events := es }

/-- The row-major address of a glyph bit, in 0..249 (`20_memory.md` R26). -/
def glyphAddress (d : Fin 10) (r c : Fin 5) : Nat := d.val * 25 + r.val * 5 + c.val

/-- `GlyphRead(d, r, c)`, defined for the digits and cells that exist and for no others (`20_memory.md` R26). -/
def glyphRead (p : Params) (d : Fin 10) (r c : Fin 5) : Bool := p.glyph.getLsbD (glyphAddress d r c)

end Sys2Proof.Machine
end

