-- ==== Sys2Proof/Machine/Debouncer.lean ====
section
/-! DEFINITION. The input debouncer: the state machine of a button and the meanings of EDGE_A and EDGE_B
(`44_input_debouncer.md` R71 to R76). -/

namespace Sys2Proof.Machine

/-- What a button's debouncer is at a given time (`44_input_debouncer.md` R71). -/
inductive ButtonPhase where
  | idleNeverTriggered | recentlyTriggered | idleWindowExpired
  deriving DecidableEq, Repr

/-- The phase of button `x` at time `t`. Time alone moves it from recently triggered to idle
(`44_input_debouncer.md` R71). -/
def State.phase (s : State) (x : Button) (t : Timestamp) : ButtonPhase :=
  if s.seen x = false then .idleNeverTriggered
  else if (elapsed t (s.last x)).toNat ≤ Config.debounceWindow then .recentlyTriggered
  else .idleWindowExpired

/-- What becomes of an edge (`44_input_debouncer.md` R73). -/
inductive EdgeVerdict where
  | accepted | discarded
  deriving DecidableEq, Repr

/-- The window test: an edge is discarded when its button was seen and at most 400 ms have passed since its last
accepted edge (`44_input_debouncer.md` R73, `90_conflicts.md` C3, C4). -/
def State.edgeVerdict (s : State) (x : Button) (t : Timestamp) : EdgeVerdict :=
  if s.seen x ∧ (elapsed t (s.last x)).toNat ≤ Config.debounceWindow then .discarded else .accepted

/-- `Debounce(X, t)`: the verdict, and the state with the edge's time kept if it was accepted
(`44_input_debouncer.md` R74). -/
def debounce (x : Button) (t : Timestamp) (s : State) : EdgeVerdict × State :=
  match s.edgeVerdict x t with
  | .discarded => (.discarded, s)
  | .accepted => (.accepted, s.markAccepted x t)

/-- An edge of a button with a given effect: the effect is applied only if the edge is accepted, and an accepted edge is
kept even when the effect does nothing at a bound (`44_input_debouncer.md` R74, `90_conflicts.md` C2). -/
def edge (x : Button) (effect : State → State) (t : Timestamp) (s : State) : State :=
  match debounce x t s with
  | (.discarded, s') => s'
  | (.accepted, s') => effect s'

/-- EDGE_A, falling edge on button line A, increment (`44_input_debouncer.md` R75). -/
def execEdgeA (ts : Timestamp) (s : State) : Result := .next (edge .a State.countUp ts s)

/-- EDGE_B, falling edge on button line B, decrement (`44_input_debouncer.md` R76). -/
def execEdgeB (ts : Timestamp) (s : State) : Result := .next (edge .b State.countDown ts s)

end Sys2Proof.Machine
end

