-- ==== Sys2Proof/Machine/Encoder.lean ====
section
/-! DEFINITION. The pixel encoder's test port: the meaning of ENCODE (`41_pixel_encoder.md` R57). -/

namespace Sys2Proof.Machine

/-- ENCODE, encode one colour on the test port (`41_pixel_encoder.md` R57). -/
def execEncode (g r b : Channel) (s : State) : Result :=
  .next { s with encWord := packGRB (byteQ g) (byteQ r) (byteQ b) }

end Sys2Proof.Machine
end

