-- ==== Sys2Proof/Machine/Heartbeat.lean ====
section
/-! DEFINITION. The heartbeat generator: the meaning of TICK (`45_heartbeat.md` R77 to R79). -/

namespace Sys2Proof.Machine

/-- The heartbeat is due: strictly more than 100 ms since the last toggle (`45_heartbeat.md` R77, `00_scope.md` R5). -/
def State.heartbeatDue (s : State) (ts : Timestamp) : Bool :=
  (elapsed ts s.hbLast).toNat > Config.heartbeatPeriod

/-- TICK, evaluate the heartbeat at time `ts` (`45_heartbeat.md` R77). -/
def execTick (ts : Timestamp) (s : State) : Result :=
  .next (if s.heartbeatDue ts then { s with hbFlag := !s.hbFlag, hbLast := ts } else s)

end Sys2Proof.Machine
end

