-- ==== Sys2Proof/Machine/Compositor.lean ====
section
/-! DEFINITION. The digit compositor: the colour and the word of a cell, and the grid of a digit (`43_digit_compositor.md`
R67 to R69). -/

namespace Sys2Proof.Machine

/-- Three independent intensity channels, each in [0, 1] (`00_scope.md` section 6, Color). -/
structure Colour where
  red : ℚ
  green : ℚ
  blue : ℚ
  deriving DecidableEq, Repr

/-- The colour of a cell: red at BRIGHTNESS / 255 when on, else all zero (`43_digit_compositor.md` R67). -/
def cellColour (p : Params) (on : Bool) : Colour :=
  if on then { red := (p.brightness.toNat : ℚ) / 255, green := 0, blue := 0 }
  else { red := 0, green := 0, blue := 0 }

/-- A colour goes out with its green byte first, whatever its logical channel order (`41_pixel_encoder.md` R56). -/
def Colour.word (c : Colour) : PixelWord := encodeColour c.green c.red c.blue

/-- `CellWord(on)` (`43_digit_compositor.md` R68). -/
def cellWord (p : Params) (on : Bool) : PixelWord :=
  if on then p.brightness.setWidth 32 <<< 8 else 0

/-- `Compose(d)`: the 5×5 grid of cell words, rows top to bottom and columns left to right (`43_digit_compositor.md`
R69). The block never stores it. -/
def compose (p : Params) (d : Fin 10) : Vector (Vector PixelWord 5) 5 :=
  Vector.ofFn fun row => Vector.ofFn fun col => cellWord p (glyphRead p d row col)

end Sys2Proof.Machine
end

