-- ==== Sys2Proof/Machine/Renderer.lean ====
section
/-! DEFINITION. The matrix renderer: the serpentine map, the word presented at each position, and the meanings of FRAME
and ACCEPT (`42_matrix_renderer.md` R58 to R66). -/

namespace Sys2Proof.Machine

/-- `Cell(k)`: the row and column of the LED at chain position `k` (`42_matrix_renderer.md` R60). -/
def cell (k : Fin 25) : Fin 5 × Fin 5 :=
  let row := 4 - k.val / 5
  let j := k.val % 5
  (⟨row, by omega⟩, ⟨if row % 2 = 0 then 4 - j else j, by split <;> omega⟩)

/-- `Phys(row, col)`: the chain position of a cell (`42_matrix_renderer.md` R60). -/
def phys (row col : Fin 5) : Fin 25 :=
  ⟨(4 - row.val) * 5 + (if row.val % 2 = 0 then 4 - col.val else col.val), by split <;> omega⟩

/-- `PixelWord(d, k)`: the word of position `k` of a frame of digit `d` (`42_matrix_renderer.md` R62). -/
def pixelWord (p : Params) (d : Fin 10) (k : Fin 25) : PixelWord :=
  cellWord p (glyphRead p d (cell k).1 (cell k).2)

/-- `frame_digit` and `frame_idx` hold values for which PixelWord is defined (`10_state.md` R12, R18;
`43_digit_compositor.md` R70). -/
abbrev State.frameLegal (s : State) : Prop := s.frameDigit.toNat < 10 ∧ s.frameIdx.toNat < 25

/-- The word presented while a frame is in flight: `PixelWord(S.frame_digit, S.frame_idx)`, and a free value where that
is not defined (`10_state.md` R21; notes/assumptions/7.md). -/
def State.presentedWord (p : Params) (s : State) : PixelWord :=
  if h : s.frameLegal then pixelWord p ⟨s.frameDigit.toNat, h.1⟩ ⟨s.frameIdx.toNat, h.2⟩
  else Config.freePixelWord s.draw

/-- FRAME, start a frame (`42_matrix_renderer.md` R63). Busy is looked at before the digit (`60_exceptions.md` R85). -/
def execFrame (s : State) : Result :=
  if s.frameBusy then .next s
  else if s.counter.toNat > 9 then raiseFault .digitRange s
  else .next { s with frameDigit := s.counter, frameIdx := 0, frameBusy := true }

/-- `Transfer(w)`: the word joins the output history (`42_matrix_renderer.md` R64, `20_memory.md` R27). -/
def State.transfer (s : State) (w : PixelWord) : State := { s with hist := s.hist ++ [w] }

/-- The frame sequencer after a transfer: past position 24 the frame is over, else the next position. At 31 the next
position does not fit and is a free value (`42_matrix_renderer.md` R64; notes/assumptions/8.md). -/
def State.advanceFrame (s : State) : State :=
  if s.frameIdx.toNat = 24 then { s with frameBusy := false, frameIdx := 0 }
  else if s.frameIdx.toNat = 31 then { s with frameIdx := Config.freeFrameIdx s.draw }
  else { s with frameIdx := s.frameIdx + 1 }

/-- One more free value has been drawn, where the frame registers made the ACCEPT draw one (notes/assumptions/7.md). -/
def State.countDraw (s : State) (drew : Bool) : State :=
  if drew then { s with draw := s.draw + 1 } else s

/-- ACCEPT under given parameters: ready with nothing valid does nothing, else the presented word moves
(`42_matrix_renderer.md` R64). -/
def acceptWith (p : Params) (s : State) : State :=
  if s.frameBusy then
    (State.advanceFrame (s.transfer (s.presentedWord p))).countDraw (decide ¬ s.frameLegal)
  else s

/-- ACCEPT, the transport takes the presented word (`42_matrix_renderer.md` R64). -/
def execAccept (s : State) : Result := .next (acceptWith Config.built s)

end Sys2Proof.Machine
end

