-- ==== Sys2Proof/Machine/ResetEvent.lean ====
section
/-! DEFINITION. The meaning of RESET (`70_reset_and_hazards.md` R94). -/

namespace Sys2Proof.Machine

/-- RESET, the external reset event: every block field to its reset value, the fault record kept
(`70_reset_and_hazards.md` R94). The output history, the events still to come and the count of draws are no block
state and stay (notes/assumptions/1.md, 3.md and 7.md). -/
def execReset (s : State) : Result :=
  .next { s with
    counter := 0
    seenA := false, lastA := 0
    seenB := false, lastB := 0
    hbFlag := false, hbLast := 0
    frameBusy := false, frameIdx := 0, frameDigit := 0
    encWord := 0 }

end Sys2Proof.Machine
end

