-- ==== Sys2Proof/Machine/Dispatch.lean ====
section
/-! DEFINITION. The meaning of each event, one arm per constructor (`30_encoding.md` R43). -/

namespace Sys2Proof.Machine

def exec (i : Instr) (s : State) : Host.Outcome State Fault Refusal :=
  match i with
  | .edgeA ts => Sys2Proof.Machine.execEdgeA ts s
  | .edgeB ts => Sys2Proof.Machine.execEdgeB ts s
  | .tick ts => Sys2Proof.Machine.execTick ts s
  | .frame => Sys2Proof.Machine.execFrame s
  | .accept => Sys2Proof.Machine.execAccept s
  | .encode g r b => Sys2Proof.Machine.execEncode g r b s
  | .reset => Sys2Proof.Machine.execReset s

end Sys2Proof.Machine
end

