-- ==== Sys2Proof/Machine/Sequence.lean ====
section
/-! DEFINITION. The event sequence: taking the next word, what a refused or a faulting event leaves, and running many
events (`00_scope.md` R2, R3; `20_memory.md` R34; `30_encoding.md` R46). -/

namespace Sys2Proof.Machine

/-- One event word, decoded and run: the decoder's refusal comes before any rule (`60_exceptions.md` R85). -/
def runWord (w : EventWord) (s : State) : Result :=
  match decode w with
  | .event i => exec i s
  | .refuse reason => .refused (refusalOf reason)

/-- The next event of the sequence is taken out and run whole. With no event to take the block waits
(`00_scope.md` R2, `70_reset_and_hazards.md` R93; notes/assumptions/1.md). -/
def takeEvent (s : State) : Result :=
  match s.events with
  | [] => .next s
  | w :: rest => runWord w (s.withEvents rest)

/-- The state an outcome leaves, where `s` is the state the event met: a fault leaves its record (`10_state.md` R20), a
refused word changes no state (`30_encoding.md` R46; notes/assumptions/6.md). -/
def stateAfter (s : State) : Result → State
  | .next t => t
  | .fault (.digitRange t) => t
  | .refused _ => s

/-- The state after one word, whichever outcome it had. -/
def feedWord (s : State) (w : EventWord) : State := stateAfter s (runWord w s)

/-- The state after a sequence of words, in order. A built block goes on after a word it ignores
(`93_implementation_defined.md` K-13). -/
def feed (s : State) (ws : List EventWord) : State := ws.foldl feedWord s

/-- The state after the next event of the sequence, whichever outcome it had: a refused word is used up. -/
def afterEvent (s : State) : State := stateAfter (s.withEvents s.events.tail) (takeEvent s)

/-- The state after the next `n` events of the sequence. -/
def afterEvents : Nat → State → State
  | 0, s => s
  | n + 1, s => afterEvents n (afterEvent s)

/-- A list of events run in order, up to the first that gives no next state. -/
def execAll : List Instr → State → Result
  | [], s => .next s
  | i :: is, s =>
    match exec i s with
    | .next t => execAll is t
    | .fault f => .fault f
    | .refused r => .refused r

/-- The next event of `s` is the word whose low `nbits` bits are `w`; nothing else changes (notes/assumptions/2.md). -/
def State.pushTableWord (s : State) (nbits w : Nat) : State :=
  s.withEvents (tableWord nbits w :: s.events)

end Sys2Proof.Machine
end

