-- ==== Sys2Proof/Machine/Step.lean ====
section
/-! DEFINITION. One step of the machine: one event (`00_scope.md` R2). -/

namespace Sys2Proof.Machine

/-- One step: the next event of the sequence, or waiting for one. -/
def step (s : State) : Host.Outcome State Fault Refusal := takeEvent s

/-- The state whose very next step runs the given word (notes/assumptions/2.md). -/
def State.withFetchWord (s : State) (nbits w : Nat) : State := s.pushTableWord nbits w

end Sys2Proof.Machine
end

