-- ==== Sys2Proof/Machine/Agents.lean ====
section
/-! DEFINITION. The agents around the block and the events each gives it (`60_exceptions.md` R89), and the orders in which
events of one instant may enter the sequence (R84). -/

namespace Sys2Proof.Machine

/-- Who gives the block events (`60_exceptions.md` R89). -/
inductive Agent where
  | buttonLineA | buttonLineB | tickSource | frameRequester | transport | host
  deriving DecidableEq, Repr

/-- "Agents that give the block events, and the only events each gives" (`60_exceptions.md` R89). -/
def Agent.gives (agent : Agent) (m : Mnemonic) : Bool :=
  match agent with
  | .buttonLineA => m = .edgeA
  | .buttonLineB => m = .edgeB
  | .tickSource => m = .tick
  | .frameRequester => m = .frame
  | .transport => m = .accept
  | .host => m = .reset || m = .encode

/-- EVENT_ORDER, left open: events of one instant may enter the sequence in any order (`60_exceptions.md` R84;
notes/assumptions/9.md). -/
def admissibleOrder (sameInstant entered : List Instr) : Prop := entered.Perm sameInstant

end Sys2Proof.Machine
end

