-- ==== Sys2Proof/Machine/Assembly.lean ====
section
/-! DEFINITION. The text form of events and the two pseudo-instructions (`30_encoding.md` R49, R50). What the spec leaves
open of a text (spaces, where commas may stand) is in notes/assumptions/13.md. -/

namespace Sys2Proof.Machine

/-- `ACCEPTN n` (`30_encoding.md` R50). -/
def acceptN (n : Nat) : List Instr := List.replicate n .accept

/-- `ITER ts`: one MainLoop iteration over a transport that is never full (`30_encoding.md` R50). -/
def iter (ts : Timestamp) : List Instr := .tick ts :: .frame :: acceptN 25

/-- The mnemonic's spelling (`30_encoding.md` R43). -/
def mnemonicName : Mnemonic → List Char
  | .edgeA => ['E', 'D', 'G', 'E', '_', 'A']
  | .edgeB => ['E', 'D', 'G', 'E', '_', 'B']
  | .tick => ['T', 'I', 'C', 'K']
  | .frame => ['F', 'R', 'A', 'M', 'E']
  | .accept => ['A', 'C', 'C', 'E', 'P', 'T']
  | .encode => ['E', 'N', 'C', 'O', 'D', 'E']
  | .reset => ['R', 'E', 'S', 'E', 'T']

def allMnemonics : List Mnemonic := [.edgeA, .edgeB, .tick, .frame, .accept, .encode, .reset]

/-- A token, given its letters last first; nothing for no letters. -/
def closeToken (letters : List Char) : List (List Char) := if letters = [] then [] else [letters.reverse]

/-- A line's tokens: words between spaces, each comma a token of its own, and nothing from `#` on. -/
def tokenize : List Char → List Char → List (List Char)
  | [], letters => closeToken letters
  | c :: cs, letters =>
    if c = '#' then closeToken letters
    else if c = ' ' ∨ c = '\t' ∨ c = '\r' then closeToken letters ++ tokenize cs []
    else if c = ',' then closeToken letters ++ [','] :: tokenize cs []
    else tokenize cs (c :: letters)

def digitValue (c : Char) : Option Nat :=
  if '0'.toNat ≤ c.toNat ∧ c.toNat ≤ '9'.toNat then some (c.toNat - '0'.toNat) else none

def hexDigitValue (c : Char) : Option Nat :=
  if 'a'.toNat ≤ c.toNat ∧ c.toNat ≤ 'f'.toNat then some (c.toNat - 'a'.toNat + 10)
  else if 'A'.toNat ≤ c.toNat ∧ c.toNat ≤ 'F'.toNat then some (c.toNat - 'A'.toNat + 10)
  else digitValue c

/-- The number a list of digits writes in a base, read on from `acc`. -/
def readDigits (base : Nat) (digit : Char → Option Nat) : List Char → Nat → Option Nat
  | [], acc => some acc
  | c :: cs, acc => (digit c).bind fun d => readDigits base digit cs (acc * base + d)

/-- "Numbers are decimal or `0x` hexadecimal" (`30_encoding.md` R49). -/
def readNumber : List Char → Option Nat
  | [] => none
  | '0' :: 'x' :: cs => if cs = [] then none else readDigits 16 hexDigitValue cs 0
  | cs => readDigits 10 digitValue cs 0

/-- The operands after a mnemonic, separated by commas. -/
def readOperands : List (List Char) → Option (List Nat)
  | [] => some []
  | [n] => (readNumber n).map fun v => [v]
  | n :: sep :: rest =>
    if sep = [','] ∧ rest ≠ [] then
      (readNumber n).bind fun v => (readOperands rest).map fun vs => v :: vs
    else none

/-- The events a mnemonic with operands stands for, nothing where the assembler refuses (`30_encoding.md` R49, R50). -/
def readEvent (name : List Char) (operands : List Nat) : Option (List Instr) :=
  if name = ['A', 'C', 'C', 'E', 'P', 'T', 'N'] then
    match operands with
    | [n] => some (acceptN n)
    | _ => none
  else if name = ['I', 'T', 'E', 'R'] then
    match operands with
    | [ts] => if fitsTimestamp ts then some (iter (BitVec.ofNat 32 ts)) else none
    | _ => none
  else
    match allMnemonics.find? (fun m => mnemonicName m = name) with
    | some m => (RawEvent.toInstr { mnemonic := m, operands := operands }).map fun i => [i]
    | none => none

/-- One line: at most one event, after which `#` may begin a comment (`30_encoding.md` R49). -/
def readLine (line : List Char) : Option (List Instr) :=
  match tokenize line [] with
  | [] => some []
  | name :: rest => (readOperands rest).bind (readEvent name)

/-- The events of a text's lines, nothing if the assembler refuses one of them. -/
def readLines : List (List Char) → Option (List Instr)
  | [] => some []
  | line :: rest => (readLine line).bind fun is => (readLines rest).map fun js => is ++ js

/-- A text's lines. -/
def splitLines : List Char → List Char → List (List Char)
  | [], line => [line.reverse]
  | c :: cs, line => if c = '\n' then line.reverse :: splitLines cs [] else splitLines cs (c :: line)

/-- The event words of a text, in order. -/
def assemble (text : List Char) : Option (List EventWord) :=
  (readLines (splitLines text [])).map fun is => is.map encode

end Sys2Proof.Machine
end

