-- ==== Sys2Proof/Machine/Flags.lean ====
section
/-! DEFINITION. The block has no flags and no condition codes (`10_state.md` R22). What it shows of its state are the
outputs of `10_state.md` R21, each a function of the state alone. -/

namespace Sys2Proof.Machine

/-- `digit`: observation of `counter` (`60_exceptions.md` R88). -/
def State.outDigit (s : State) : DigitReg := s.counter

/-- `out_valid`: a word is presented. -/
def State.outValid (s : State) : Bool := s.frameBusy

/-- `out_word` under given parameters: the presented word, and 0 while idle. -/
def State.outWordWith (p : Params) (s : State) : PixelWord := if s.frameBusy then s.presentedWord p else 0

/-- `out_word` of the block at hand. -/
def State.outWord (s : State) : PixelWord := s.outWordWith Config.built

/-- `frame_busy`: a frame is in flight. -/
def State.outFrameBusy (s : State) : Bool := s.frameBusy

/-- `hb_led`: the heartbeat line, true = high (`45_heartbeat.md` R78). -/
def State.hbLed (s : State) : Bool := s.hbFlag

/-- `enc_out`: the ENCODE result. -/
def State.encOut (s : State) : PixelWord := s.encWord

end Sys2Proof.Machine
end

