-- ==== Sys2Proof/Safety.lean ====
section
/-! DEFINITION. What counts as a legal state and as a safe run, and the words the statements are written in. -/

namespace Sys2Proof.Machine

/-- The two words a frame can hold: the on word and the off word (`43_digit_compositor.md` R68). -/
def isCellWord (w : PixelWord) : Prop := w = cellWord Config.built true ∨ w = cellWord Config.built false

/-- The legal states: every register within its legal values (`10_state.md` R12), the sequencer and the debounce times at
their reset values while they mean nothing (R16, R18, R24), and only cell words transferred. It says nothing of the fault
record or of the events still to come. -/
structure State.Legal (s : State) : Prop where
  counter : s.counter.toNat ≤ 9
  frameDigit : s.frameDigit.toNat ≤ 9
  frameIdx : s.frameIdx.toNat ≤ 24
  idleAtZero : s.frameBusy = false → s.frameIdx = 0
  neverSeenA : s.seenA = false → s.lastA = 0
  neverSeenB : s.seenB = false → s.lastB = 0
  encTopByte : s.encWord.extractLsb' 24 8 = 0
  histCellWords : ∀ w ∈ s.hist, isCellWord w

/-- "A state with a non-empty record is never final" (`10_state.md` R20). -/
def State.mayBeFinal (s : State) : Bool := s.fault.isEmpty

/-- The ms from stamp `last` to stamp `now`, as a number: `(now - last) mod 2^32` (`00_scope.md` R8, R10). -/
def msBetween (last now : Timestamp) : Nat := (now.toNat + 2 ^ 32 - last.toNat) % 2 ^ 32

/-- The stamp the external time base gives at real time `t`, in ms since it last stood at 0 (`60_exceptions.md` R87,
`70_reset_and_hazards.md` R98). -/
def stampAt (t : Nat) : Timestamp := BitVec.ofNat 32 t

/-- An event other than ACCEPT and RESET: while such events alone come, a frame is stalled (`42_matrix_renderer.md` R66). -/
def leavesFrameStalled (i : Instr) : Bool := i ≠ .accept && i ≠ .reset

/-- How many ACCEPTs are in a list of events. -/
def acceptCount (is : List Instr) : Nat := is.count .accept

/-- The cells of state that `10_state.md` R23 tells apart. -/
inductive StateCell where
  | counter | debounceA | debounceB | heartbeat | frame | encWord | fault
  deriving DecidableEq, Repr

/-- Two states hold the same in a cell. -/
def StateCell.same : StateCell → State → State → Prop
  | .counter, s, t => s.counter = t.counter
  | .debounceA, s, t => s.seenA = t.seenA ∧ s.lastA = t.lastA
  | .debounceB, s, t => s.seenB = t.seenB ∧ s.lastB = t.lastB
  | .heartbeat, s, t => s.hbFlag = t.hbFlag ∧ s.hbLast = t.hbLast
  | .frame, s, t => s.frameBusy = t.frameBusy ∧ s.frameIdx = t.frameIdx ∧ s.frameDigit = t.frameDigit
  | .encWord, s, t => s.encWord = t.encWord
  | .fault, s, t => s.fault = t.fault

/-- The cells marked R for an event in the table of `10_state.md` R23. -/
def cellsRead : Mnemonic → List StateCell
  | .edgeA => [.counter, .debounceA]
  | .edgeB => [.counter, .debounceB]
  | .tick => [.heartbeat]
  | .frame => [.counter, .frame]
  | .accept => [.frame]
  | .encode => []
  | .reset => []

/-- The cells marked W for an event in the table of `10_state.md` R23. -/
def cellsWritten : Mnemonic → List StateCell
  | .edgeA => [.counter, .debounceA]
  | .edgeB => [.counter, .debounceB]
  | .tick => [.heartbeat]
  | .frame => [.frame, .fault]
  | .accept => [.frame]
  | .encode => [.encWord]
  | .reset => [.counter, .debounceA, .debounceB, .heartbeat, .frame, .encWord]

end Sys2Proof.Machine
end

