-- ==== Sys2Proof/Certificates/Slice0/Obligations.lean ====
section
/-! DEFINITION. The statements for the provers, in the order of OBLIGATIONS.json. -/

open Sys2Proof Sys2Proof.Machine

/-! ### Encoding -/

/-- Every event is read back from its word, with every operand at every value (`30_encoding.md` R42 to R44). -/
def Obligations.DecodingAnEncodedEventGivesItBack : Prop :=
  ∀ i : Instr, decode (encode i) = .event i

/-- A word that spells an event is that event's one word: no bit of it is dropped (`30_encoding.md` R42, R45). -/
def Obligations.EncodingADecodedWordGivesItBack : Prop :=
  ∀ (w : EventWord) (i : Instr), decode w = .event i → encode i = w

/-- The opcode map of `30_encoding.md` R43: a word spells an event exactly when it shows the row's match under the row's
mask, and the opcodes no row has are illegal. -/
def Obligations.WordSpellsEventExactlyByMaskAndMatch : Prop :=
  ∀ w : EventWord,
    ((∃ ts, decode w = .event (.edgeA ts)) ↔ w &&& 0xFFFFFFFF00000000 = 0x1000000000000000) ∧
    ((∃ ts, decode w = .event (.edgeB ts)) ↔ w &&& 0xFFFFFFFF00000000 = 0x2000000000000000) ∧
    ((∃ ts, decode w = .event (.tick ts)) ↔ w &&& 0xFFFFFFFF00000000 = 0x3000000000000000) ∧
    (decode w = .event .frame ↔ w &&& 0xFFFFFFFFFFFFFFFF = 0x4000000000000000) ∧
    (decode w = .event .accept ↔ w &&& 0xFFFFFFFFFFFFFFFF = 0x5000000000000000) ∧
    ((∃ g r b, decode w = .event (.encode g r b)) ↔ w &&& 0xFFF8000000000000 = 0x6000000000000000) ∧
    (decode w = .event .reset ↔ w &&& 0xFFFFFFFFFFFFFFFF = 0x7000000000000000) ∧
    (decode w = .refuse .illegalOp ↔ w.toNat / 2 ^ 60 = 0 ∨ 8 ≤ w.toNat / 2 ^ 60)

/-- The rows of the opcode table say the same, and no word matches two of them (`30_encoding.md` R43). -/
def Obligations.OpcodeTableRowsAgreeWithTheDecoder : Prop :=
  (∀ row ∈ opcodeTable, ∀ w : EventWord,
    row.spelledBy w = true ↔ ∃ i, decode w = .event i ∧ i.mnemonic = row.mnemonic) ∧
  (∀ row ∈ opcodeTable, ∀ row' ∈ opcodeTable, ∀ w : EventWord,
    row.spelledBy w = true → row'.spelledBy w = true → row = row')

/-- Operands are the named bits, as unsigned numbers (`30_encoding.md` R44). -/
def Obligations.OperandsAreTheNamedBitsUnscaled : Prop :=
  ∀ w : EventWord,
    (∀ ts, decode w = .event (.edgeA ts) ∨ decode w = .event (.edgeB ts) ∨ decode w = .event (.tick ts) →
      ts.toNat = w.toNat % 2 ^ 32) ∧
    (∀ g r b, decode w = .event (.encode g r b) →
      g.toNat = w.toNat / 2 ^ 34 % 2 ^ 17 ∧ r.toNat = w.toNat / 2 ^ 17 % 2 ^ 17 ∧ b.toNat = w.toNat % 2 ^ 17 ∧
      channelValue g = (g.toNat : ℚ) / 65536 ∧ channelValue r = (r.toNat : ℚ) / 65536 ∧
      channelValue b = (b.toNat : ℚ) / 65536)

/-- Which words are illegal, with which reason, and that a legal word's reserved bits are 0 in its format
(`30_encoding.md` R45, R46). The decoder being a function, a word has one event or one reason. -/
def Obligations.ReservedBitsAreZeroInEveryLegalWord : Prop :=
  ∀ w : EventWord,
    (decode w = .refuse .illegalOp ↔ w.toNat / 2 ^ 60 = 0 ∨ 8 ≤ w.toNat / 2 ^ 60) ∧
    (decode w = .refuse .reservedNonzero ↔
      ((w.toNat / 2 ^ 60 = 1 ∨ w.toNat / 2 ^ 60 = 2 ∨ w.toNat / 2 ^ 60 = 3) ∧ w.toNat / 2 ^ 32 % 2 ^ 28 ≠ 0) ∨
      ((w.toNat / 2 ^ 60 = 4 ∨ w.toNat / 2 ^ 60 = 5 ∨ w.toNat / 2 ^ 60 = 7) ∧ w.toNat % 2 ^ 60 ≠ 0) ∨
      (w.toNat / 2 ^ 60 = 6 ∧ w.toNat / 2 ^ 51 % 2 ^ 9 ≠ 0)) ∧
    ((∃ i, decode w = .event i) ↔
      ((w.toNat / 2 ^ 60 = 1 ∨ w.toNat / 2 ^ 60 = 2 ∨ w.toNat / 2 ^ 60 = 3) ∧ w.toNat / 2 ^ 32 % 2 ^ 28 = 0) ∨
      ((w.toNat / 2 ^ 60 = 4 ∨ w.toNat / 2 ^ 60 = 5 ∨ w.toNat / 2 ^ 60 = 7) ∧ w.toNat % 2 ^ 60 = 0) ∨
      (w.toNat / 2 ^ 60 = 6 ∧ w.toNat / 2 ^ 51 % 2 ^ 9 = 0))

/-- The example encodings the spec prints under `30_encoding.md` section 4. -/
def Obligations.PrintedExampleWordsDecode : Prop :=
  decode 0x1000000000000000 = .event (.edgeA 0) ∧
  decode 0x100000000000019A = .event (.edgeA 410) ∧
  decode 0x2000000000000000 = .event (.edgeB 0) ∧
  decode 0x3000000000000065 = .event (.tick 101) ∧
  decode 0x4000000000000000 = .event .frame ∧
  decode 0x5000000000000000 = .event .accept ∧
  decode 0x60020001FFFE0102 = .event (.encode 32768 65535 258) ∧
  decode 0x7000000000000000 = .event .reset

/-- Event words carried as bytes go most significant byte first (`20_memory.md` R30). -/
def Obligations.EventBytesGoMostSignificantFirst : Prop :=
  ∀ (w : EventWord) (rest : List Byte),
    (bytesOfWord w).map BitVec.toNat =
      (List.range 8).map (fun k => w.toNat / 2 ^ (8 * (7 - k)) % 2 ^ 8) ∧
    wordOfBytes (bytesOfWord w ++ rest) = some (w, rest) ∧
    decodeBytes (bytesOfWord w ++ rest) = some (decode w, rest)

/-- An assembler takes exactly the operands that fit their fields, and what an event writes is read back
(`30_encoding.md` R49). -/
def Obligations.AssemblerTakesExactlyFittingOperands : Prop :=
  (∀ ts : Nat, ∀ m, m = .edgeA ∨ m = .edgeB ∨ m = .tick →
    ((RawEvent.toInstr { mnemonic := m, operands := [ts] }).isSome = true ↔ ts < 2 ^ 32)) ∧
  (∀ g r b : Nat,
    (RawEvent.toInstr { mnemonic := .encode, operands := [g, r, b] }).isSome = true ↔
      g < 2 ^ 17 ∧ r < 2 ^ 17 ∧ b < 2 ^ 17) ∧
  (∀ i : Instr, i.toRaw.wellFormed = true ∧ i.toRaw.toInstr = some i)

/-- The printed example texts assemble to the printed words (`30_encoding.md` R49, section 4). -/
def Obligations.PrintedExampleTextsAssemble : Prop :=
  assemble "EDGE_A 0\nEDGE_A 410\nEDGE_B 0\nTICK 101".toList =
    some [0x1000000000000000, 0x100000000000019A, 0x2000000000000000, 0x3000000000000065] ∧
  assemble "FRAME # start\nACCEPT\nENCODE 32768, 65535, 258\nRESET".toList =
    some [0x4000000000000000, 0x5000000000000000, 0x60020001FFFE0102, 0x7000000000000000] ∧
  assemble "EDGE_A 0xFFFFFF00".toList = some [0x10000000FFFFFF00] ∧
  assemble "EDGE_A 4294967296".toList = none ∧
  assemble "ENCODE 0, 131072, 0".toList = none

/-- The two pseudo-instructions (`30_encoding.md` R50). -/
def Obligations.PseudoInstructionsExpandToFixedSequences : Prop :=
  (∀ n : Nat, (acceptN n).length = n ∧ ∀ i ∈ acceptN n, i = .accept) ∧
  (∀ ts : Timestamp, iter ts = [.tick ts, .frame] ++ acceptN 25)

/-! ### The step -/

/-- A step runs the decoded event on the state whose sequence has moved past it (`00_scope.md` R2, R3). -/
def Obligations.StepRunsTheDecodedEvent : Prop :=
  ∀ (s : State) (w : EventWord) (rest : List EventWord) (i : Instr),
    s.events = w :: rest → decode w = .event i → step s = exec i { s with events := rest }

/-- An illegal word is refused with its reason, and what it leaves is the state it met (`30_encoding.md` R46). That the
word is then used up is the model's reading (notes/assumptions/6.md). -/
def Obligations.RefusedWordChangesNoState : Prop :=
  ∀ (s : State) (w : EventWord) (rest : List EventWord), s.events = w :: rest →
    (decode w = .refuse .illegalOp →
      step s = .refused .illegalOp ∧ afterEvent s = { s with events := rest }) ∧
    (decode w = .refuse .reservedNonzero →
      step s = .refused .reservedNonzero ∧ afterEvent s = { s with events := rest })

/-- The word of any event, placed as the next one, is what the very next step runs (`00_scope.md` R2). -/
def Obligations.PlacedWordIsRunByTheNextStep : Prop :=
  ∀ (s : State) (i : Instr), step (s.withFetchWord 64 (encode i).toNat) = exec i s

/-- With no event to take, a step leaves everything as it is: "the block then waits for its first event"
(`70_reset_and_hazards.md` R93). That waiting is a step is the model's choice (notes/assumptions/1.md). -/
def Obligations.StepWithoutAnEventWaits : Prop :=
  ∀ s : State, s.events = [] → step s = .next s

/-- Taking the events of a sequence one by one gives each of them the state every earlier one left
(`00_scope.md` R2, `20_memory.md` R34). That a sequence goes on after a fault or a refused word is the model's reading
(notes/assumptions/4.md and 6.md). -/
def Obligations.SequenceIsTakenInOrderOneByOne : Prop :=
  ∀ (s : State) (ws rest : List EventWord),
    afterEvents ws.length { s with events := ws ++ rest } = feed { s with events := rest } ws

/-- Words that spell no event leave no trace: a sequence does what its legal words do (`30_encoding.md` R46,
`93_implementation_defined.md` K-13). That a sequence goes on after a fault or a refused word is the model's reading
(notes/assumptions/4.md and 6.md). -/
def Obligations.IllegalWordsLeaveNoTraceInASequence : Prop :=
  ∀ (s : State) (ws : List EventWord),
    feed s ws = feed s (ws.filter fun w => match decode w with | .event _ => true | .refuse _ => false)

/-- Every event completes but a FRAME that meets an illegal counter while idle, and no rule refuses
(`00_scope.md` R3, `60_exceptions.md` R80). -/
def Obligations.EveryEventCompletesButAFrameOnABadDigit : Prop :=
  ∀ (i : Instr) (s : State),
    (i ≠ .frame ∨ s.frameBusy = true ∨ s.counter.toNat ≤ 9 → ∃ t, exec i s = .next t) ∧
    (∀ r, exec i s ≠ .refused r) ∧
    (∀ f, exec i s = .fault f → i = .frame ∧ s.frameBusy = false ∧ 9 < s.counter.toNat)

/-! ### Pixel encoder -/

/-- `Byte(c)`: 255 times the channel, truncated, with the channel clamped to [0, 1] (`41_pixel_encoder.md` R51, R53). -/
def Obligations.ChannelByteIsClampedAndTruncated : Prop :=
  ∀ c : ℚ,
    (0 ≤ c → c ≤ 1 → ((byteOf c).toNat : ℚ) ≤ c * 255 ∧ c * 255 < ((byteOf c).toNat : ℚ) + 1) ∧
    (1 < c → (byteOf c).toNat = 255) ∧
    (c < 0 → (byteOf c).toNat = 0)

/-- The fields of an encoded colour: zero, green, red, blue from the top (`41_pixel_encoder.md` R52, `30_encoding.md`
R47). -/
def Obligations.EncodedColourIsZeroGreenRedBlue : Prop :=
  ∀ g r b : ℚ,
    (encodeColour g r b).extractLsb' 24 8 = 0 ∧
    (encodeColour g r b).extractLsb' 16 8 = byteOf g ∧
    (encodeColour g r b).extractLsb' 8 8 = byteOf r ∧
    (encodeColour g r b).extractLsb' 0 8 = byteOf b

/-- The port's integer scaling is the exact scaling of the value the operand stands for (`41_pixel_encoder.md`
R54, whose equality the spec marks as derived from R51 and R53). -/
def Obligations.PortScalingEqualsExactScaling : Prop :=
  ∀ v : Channel,
    (byteQ v).toNat = min v.toNat 65536 * 255 / 2 ^ 16 ∧ byteQ v = byteOf ((v.toNat : ℚ) / 65536)

/-- ENCODE, its word and its effect: it writes the packed bytes to `enc_word` and changes nothing else
(`41_pixel_encoder.md` R57). -/
def Obligations.EncodeWritesOnlyItsPackedWord : Prop :=
  ∀ (s : State) (g r b : Channel),
    exec (.encode g r b) s = .next { s with
      encWord := BitVec.ofNat 32
        ((min g.toNat 65536 * 255 / 2 ^ 16) * 2 ^ 16 + (min r.toNat 65536 * 255 / 2 ^ 16) * 2 ^ 8 +
          min b.toNat 65536 * 255 / 2 ^ 16) } ∧
    (encode (.encode g r b)).toNat = 6 * 2 ^ 60 + g.toNat * 2 ^ 34 + r.toNat * 2 ^ 17 + b.toNat

/-! ### Matrix renderer and compositor -/

/-- The visiting sequence with its logical indexes, and the two maps (`42_matrix_renderer.md` R58, R59, R60).
That the maps are inverse is the spec's own derivation: "`Cell` and `Phys` are inverse bijections". -/
def Obligations.SerpentineSequenceAndItsInverse : Prop :=
  (List.finRange 25).map (fun k => ((cell k).1.val, (cell k).2.val)) =
    [(4, 4), (4, 3), (4, 2), (4, 1), (4, 0), (3, 0), (3, 1), (3, 2), (3, 3), (3, 4), (2, 4), (2, 3), (2, 2),
     (2, 1), (2, 0), (1, 0), (1, 1), (1, 2), (1, 3), (1, 4), (0, 4), (0, 3), (0, 2), (0, 1), (0, 0)] ∧
  (List.finRange 25).map (fun k => (cell k).1.val * 5 + (cell k).2.val) =
    [24, 23, 22, 21, 20, 15, 16, 17, 18, 19, 14, 13, 12, 11, 10, 5, 6, 7, 8, 9, 4, 3, 2, 1, 0] ∧
  (∀ k : Fin 25, phys (cell k).1 (cell k).2 = k) ∧
  (∀ row col : Fin 5, cell (phys row col) = (row, col))

/-- The word of a cell, as a number and as the encoded colour of the cell (`43_digit_compositor.md` R67, R68).
The spec marks the word as derived from the colour; both forms are stated. -/
def Obligations.CellWordIsTheEncodedCellColour : Prop :=
  ∀ p : Params,
    (cellWord p true).toNat = p.brightness.toNat * 2 ^ 8 ∧ cellWord p false = 0 ∧
    (∀ on, cellColour p on =
      { red := if on then (p.brightness.toNat : ℚ) / 255 else 0, green := 0, blue := 0 }) ∧
    (∀ on, cellWord p on = encodeColour (cellColour p on).green (cellColour p on).red (cellColour p on).blue)

/-- The grid of a digit shows its glyph, and a frame's word `k` is the grid's cell `Cell(k)`
(`43_digit_compositor.md` R69, `42_matrix_renderer.md` R62, `20_memory.md` R26). -/
def Obligations.ComposedGridShowsTheGlyph : Prop :=
  ∀ (p : Params) (d : Fin 10),
    (∀ row col : Fin 5, ((compose p d).get row).get col =
      if p.glyph.getLsbD (d.val * 25 + row.val * 5 + col.val) then cellWord p true else cellWord p false) ∧
    (∀ k : Fin 25, pixelWord p d k = ((compose p d).get (cell k).1).get (cell k).2)

/-- FRAME, its word and its effect: ignored while busy, else a fault on a counter above 9, else the frame starts with the
counter's digit, and its first word is presented at once (`42_matrix_renderer.md` R63). Each of the three cases gives the
whole outcome, so all else is unchanged. What the faulted state holds is `10_state.md` R20's; that the outcome carries it
is the form of notes/assumptions/4.md. -/
def Obligations.FrameIsIgnoredFaultsOrStarts : Prop :=
  ∀ s : State,
    (s.frameBusy = true → exec .frame s = .next s) ∧
    (s.frameBusy = false → 9 < s.counter.toNat →
      exec .frame s = .fault (.digitRange { s with fault := s.fault ++ [.digitRange] })) ∧
    (s.frameBusy = false → s.counter.toNat ≤ 9 →
      exec .frame s = .next { s with frameDigit := s.counter, frameIdx := 0, frameBusy := true }) ∧
    (∀ (p : Params) (h : s.counter.toNat < 10), s.frameBusy = false →
      ∃ t, exec .frame s = .next t ∧ t.outValid = true ∧ t.outWordWith p = pixelWord p ⟨s.counter.toNat, h⟩ 0) ∧
    encode .frame = 0x4000000000000000

/-- ACCEPT, its word and its effect: nothing while idle, else the word of the frame's digit and position is transferred
and the sequencer moves on, ending the frame after position 24 (`42_matrix_renderer.md` R64). The premise on the frame
registers holds in every legal state, which StepKeepsTheStateLegal keeps; AcceptOutsideTheLegalFrameRegisters is about the
others. -/
def Obligations.AcceptTransfersTheWordOfItsPosition : Prop :=
  ∀ s : State,
    (s.frameBusy = false → exec .accept s = .next s) ∧
    (∀ (hd : s.frameDigit.toNat < 10) (hk : s.frameIdx.toNat < 25), s.frameBusy = true →
      exec .accept s = .next { s with
        hist := s.hist ++ [pixelWord Config.built ⟨s.frameDigit.toNat, hd⟩ ⟨s.frameIdx.toNat, hk⟩]
        frameBusy := decide (s.frameIdx.toNat ≠ 24)
        frameIdx := BitVec.ofNat 5 (if s.frameIdx.toNat = 24 then 0 else s.frameIdx.toNat + 1) }) ∧
    encode .accept = 0x5000000000000000

/-- ACCEPT in a state whose frame registers hold a value no rule gives a word for: it completes, one word leaves, and
only the frame registers and the model's own count of draws change. The word is the model's free value, and so is the
position after 31 (notes/assumptions/7.md and 8.md). -/
def Obligations.AcceptOutsideTheLegalFrameRegisters : Prop :=
  ∀ s : State, s.frameBusy = true → (10 ≤ s.frameDigit.toNat ∨ 25 ≤ s.frameIdx.toNat) →
    ∃ k : IdxReg,
      exec .accept s = .next { s with
        hist := s.hist ++ [s.outWord], frameBusy := decide (s.frameIdx.toNat ≠ 24), frameIdx := k
        draw := s.draw + 1 } ∧
      (s.frameIdx.toNat = 24 → k = 0) ∧
      (s.frameIdx.toNat ≠ 24 → s.frameIdx.toNat < 31 → k.toNat = s.frameIdx.toNat + 1)

/-- A word leaves only by an ACCEPT during a frame, whole and exactly as presented (`20_memory.md` R27, R31). -/
def Obligations.WordsLeaveOnlyByAcceptAsPresented : Prop :=
  ∀ (i : Instr) (s t : State), exec i s = .next t →
    t.hist = if i = .accept ∧ s.frameBusy = true then s.hist ++ [s.outWord] else s.hist

/-- A frame transfers the words of its own digit, once each and in chain order, whatever other events come between, and
ends at the 25th (`42_matrix_renderer.md` R65, `20_memory.md` R35): after any events without RESET, the words transferred
are the first of the 25, as many as ACCEPTs came. The spec marks R65 as derived from R63 and R64; RESET, which ends a
frame early, has its own statement. -/
def Obligations.FrameTransfersItsWordsOnceInChainOrder : Prop :=
  ∀ (s : State) (is : List Instr) (h : s.counter.toNat < 10),
    s.frameBusy = false → (∀ i ∈ is, i ≠ .reset) → acceptCount is ≤ 25 →
    ∃ t, execAll (.frame :: is) s = .next t ∧
      t.hist = s.hist ++
        ((List.finRange 25).take (acceptCount is)).map (pixelWord Config.built ⟨s.counter.toNat, h⟩) ∧
      (acceptCount is < 25 →
        t.frameBusy = true ∧ t.frameIdx.toNat = acceptCount is ∧ t.frameDigit = s.counter) ∧
      (acceptCount is = 25 → is.getLast? = some .accept → t.frameBusy = false ∧ t.frameIdx = 0)

/-- While no ACCEPT and no RESET comes, a frame in flight stays at its position and its word stays presented, however
long that lasts; every event in between completes, and a further FRAME is among those ignored
(`42_matrix_renderer.md` R66, `60_exceptions.md` R92). -/
def Obligations.StalledFrameHoldsItsWord : Prop :=
  ∀ (s : State) (is : List Instr), s.frameBusy = true → (∀ i ∈ is, leavesFrameStalled i = true) →
    ∃ t, execAll is s = .next t ∧ t.frameBusy = true ∧ t.frameIdx = s.frameIdx ∧ t.frameDigit = s.frameDigit ∧
      t.hist = s.hist ∧ ∀ p, t.outWordWith p = s.outWordWith p

/-- An edge, a tick or an ENCODE between the transfers of a frame does not disturb it, nor it them: either order with an
ACCEPT gives the same state (`60_exceptions.md` R82, `10_state.md` R23). -/
def Obligations.OtherUnitsEventsCommuteWithAccept : Prop :=
  ∀ (i : Instr) (s : State), i ≠ .frame → i ≠ .reset →
    execAll [i, .accept] s = execAll [.accept, i] s

/-- One iteration of the main loop with ITER shows the counter whole and leaves no frame in flight
(`30_encoding.md` R50, `42_matrix_renderer.md` R65). -/
def Obligations.IterationShowsTheCounterWhole : Prop :=
  ∀ (s : State) (ts : Timestamp) (h : s.counter.toNat < 10), s.frameBusy = false →
    ∃ t, execAll (iter ts) s = .next t ∧
      t.hist = s.hist ++ (List.finRange 25).map (pixelWord Config.built ⟨s.counter.toNat, h⟩) ∧
      t.frameBusy = false ∧ t.counter = s.counter ∧
      t.hbFlag = (if 100 < msBetween s.hbLast ts then !s.hbFlag else s.hbFlag)

/-- The outputs (`10_state.md` R21, `45_heartbeat.md` R78). -/
def Obligations.OutputsShowTheState : Prop :=
  ∀ (p : Params) (s : State),
    s.outDigit = s.counter ∧ s.outValid = s.frameBusy ∧ s.outFrameBusy = s.frameBusy ∧ s.hbLed = s.hbFlag ∧
    s.encOut = s.encWord ∧ s.outWord = s.outWordWith Config.built ∧
    (s.frameBusy = false → s.outWordWith p = 0) ∧
    (∀ (hd : s.frameDigit.toNat < 10) (hk : s.frameIdx.toNat < 25), s.frameBusy = true →
      s.outWordWith p = pixelWord p ⟨s.frameDigit.toNat, hd⟩ ⟨s.frameIdx.toNat, hk⟩)

/-! ### Input debouncer -/

/-- EDGE_A, its word and its effect (`44_input_debouncer.md` R75): discarded within the window with nothing changed, else
accepted, its time kept and the counter up by one below 9. Each case gives the whole next state. -/
def Obligations.EdgeOnLineACountsUpOrIsDiscarded : Prop :=
  ∀ (s : State) (ts : Timestamp),
    (s.seenA = true → msBetween s.lastA ts ≤ 400 → exec (.edgeA ts) s = .next s) ∧
    (s.seenA = false ∨ 400 < msBetween s.lastA ts →
      exec (.edgeA ts) s = .next { s with
        seenA := true, lastA := ts
        counter := BitVec.ofNat 4 (if s.counter.toNat < 9 then s.counter.toNat + 1 else s.counter.toNat) }) ∧
    (encode (.edgeA ts)).toNat = 0x1000000000000000 + ts.toNat

/-- EDGE_B, its word and its effect (`44_input_debouncer.md` R76): discarded within the window with nothing changed, else
accepted, its time kept and the counter down by one above 0. Each case gives the whole next state. -/
def Obligations.EdgeOnLineBCountsDownOrIsDiscarded : Prop :=
  ∀ (s : State) (ts : Timestamp),
    (s.seenB = true → msBetween s.lastB ts ≤ 400 → exec (.edgeB ts) s = .next s) ∧
    (s.seenB = false ∨ 400 < msBetween s.lastB ts →
      exec (.edgeB ts) s = .next { s with seenB := true, lastB := ts, counter := BitVec.ofNat 4 (s.counter.toNat - 1) }) ∧
    (encode (.edgeB ts)).toNat = 0x2000000000000000 + ts.toNat

/-- The phases of a button's state machine, and that an edge is discarded in exactly one of them
(`44_input_debouncer.md` R71, R72, R73, R74). -/
def Obligations.EdgeIsDiscardedExactlyWhenRecentlyTriggered : Prop :=
  ∀ (s : State) (x : Button) (t : Timestamp),
    (s.phase x t = .idleNeverTriggered ↔ s.seen x = false) ∧
    (s.phase x t = .recentlyTriggered ↔ s.seen x = true ∧ msBetween (s.last x) t ≤ 400) ∧
    (s.phase x t = .idleWindowExpired ↔ s.seen x = true ∧ 400 < msBetween (s.last x) t) ∧
    (s.phase x t = .recentlyTriggered → debounce x t s = (.discarded, s)) ∧
    (s.phase x t ≠ .recentlyTriggered → debounce x t s = (.accepted, s.markAccepted x t) ∧
      (s.markAccepted x t).phase x t = .recentlyTriggered ∧ (s.markAccepted x t).last x = t)

/-- Of a train of edges on one button, all within 400 ms of the first, only the first moves the counter, and the window
is measured from it (`44_input_debouncer.md` R73, `95_test_vectors.md` L1-5, `90_conflicts.md` C4). Times are real times
in ms, stamped by the time base. -/
def Obligations.OnlyTheFirstEdgeOfATrainCounts : Prop :=
  ∀ (s : State) (t0 : Nat) (later : List Nat), (∀ t ∈ later, t0 ≤ t ∧ t ≤ t0 + 400) →
    (s.seenA = false → s.counter.toNat < 9 →
      execAll ((t0 :: later).map fun t => .edgeA (stampAt t)) s = .next { s with
        counter := BitVec.ofNat 4 (s.counter.toNat + 1), seenA := true, lastA := stampAt t0 }) ∧
    (s.seenB = false → 0 < s.counter.toNat →
      execAll ((t0 :: later).map fun t => .edgeB (stampAt t)) s = .next { s with
        counter := BitVec.ofNat 4 (s.counter.toNat - 1), seenB := true, lastB := stampAt t0 })

/-- Stamps that keep the time base's duties give the real time between them across a wrap; a press 2^32 + e ms later
looks e ms late; a stamp below the last with no wrap looks near 2^32 (`44_input_debouncer.md` R72,
`70_reset_and_hazards.md` R98). -/
def Obligations.ElapsedTimeIsRealTimeAcrossAWrap : Prop :=
  (∀ t0 t : Nat, t0 ≤ t → t - t0 < 2 ^ 32 → (elapsed (stampAt t) (stampAt t0)).toNat = t - t0) ∧
  (∀ t0 e : Nat, e < 2 ^ 32 → (elapsed (stampAt (t0 + 2 ^ 32 + e)) (stampAt t0)).toNat = e) ∧
  (∀ t0 t : Nat, t < t0 → t0 < 2 ^ 32 → (elapsed (stampAt t) (stampAt t0)).toNat = 2 ^ 32 - (t0 - t))

/-- Two presses of one instant: at the bound of 9 the order shows, away from both bounds it does not
(`60_exceptions.md` R84). The order is open, so both are stated. -/
def Obligations.OrderOfSimultaneousPressesShowsOnlyAtABound : Prop :=
  ∀ (s : State) (ta tb : Timestamp),
    (s.seenA = false ∨ 400 < msBetween s.lastA ta) → (s.seenB = false ∨ 400 < msBetween s.lastB tb) →
    (s.counter.toNat = 9 →
      (∃ t, execAll [.edgeA ta, .edgeB tb] s = .next t ∧ t.counter.toNat = 8) ∧
      (∃ t, execAll [.edgeB tb, .edgeA ta] s = .next t ∧ t.counter.toNat = 9)) ∧
    (0 < s.counter.toNat → s.counter.toNat < 9 → ∀ is, admissibleOrder [.edgeA ta, .edgeB tb] is →
      ∃ t, execAll is s = .next t ∧ t.counter = s.counter ∧ t.lastA = ta ∧ t.lastB = tb)

/-! ### Heartbeat -/

/-- TICK, its word and its effect (`45_heartbeat.md` R77): toggles and keeps its time exactly when more than 100 ms have
passed since the last toggle. Each case gives the whole next state. -/
def Obligations.TickTogglesAfterMoreThanHundredMs : Prop :=
  ∀ (s : State) (ts : Timestamp),
    (100 < msBetween s.hbLast ts → exec (.tick ts) s = .next { s with hbFlag := !s.hbFlag, hbLast := ts }) ∧
    (msBetween s.hbLast ts ≤ 100 → exec (.tick ts) s = .next s) ∧
    (encode (.tick ts)).toNat = 0x3000000000000000 + ts.toNat

/-- The period runs from the last toggle, not from the last TICK: any number of ticks within 100 ms of the last toggle
change nothing, and the first one later toggles (`45_heartbeat.md` R77). -/
def Obligations.HeartbeatPeriodRunsFromTheLastToggle : Prop :=
  ∀ (s : State) (early : List Timestamp) (late : Timestamp),
    (∀ ts ∈ early, msBetween s.hbLast ts ≤ 100) → 100 < msBetween s.hbLast late →
    execAll (early.map .tick) s = .next s ∧
    execAll (early.map .tick ++ [.tick late]) s = .next { s with hbFlag := !s.hbFlag, hbLast := late }

/-! ### The whole machine -/

/-- The access table of `10_state.md` R23: an event leaves every cell it is not marked W for as it was, and what it does
to the cells it is marked W for depends on the cells it is marked R for and on no others. Three things stand beside the
table. The fault cell is exempt from the second part, since a fault appends to a record no event reads; that it appends
exactly its kind is FaultAppendsItsKindAndNothingRemovesIt's. Of two states of which one faults, the second part says only
that the other faults too. And the model's own fields `events` and `draw` are no cells of the table: that no event touches
`events` is notes/assumptions/1.md's, and the two states are taken with equal `draw` because of the free values of
notes/assumptions/7.md and 8.md. -/
def Obligations.EventsTouchOnlyTheirMarkedCells : Prop :=
  (∀ (i : Instr) (s t : State), exec i s = .next t ∨ exec i s = .fault (.digitRange t) →
    t.events = s.events ∧ ∀ c : StateCell, c ∉ cellsWritten i.mnemonic → c.same t s) ∧
  (∀ (i : Instr) (s s' : State), s.draw = s'.draw → (∀ c ∈ cellsRead i.mnemonic, c.same s s') →
    (∀ t, exec i s = .next t → ∃ t', exec i s' = .next t' ∧
      ∀ c ∈ cellsWritten i.mnemonic, c = .fault ∨ c.same t t') ∧
    (∀ f, exec i s = .fault f → ∃ f', exec i s' = .fault f'))

/-- The reset values, at power-on and by RESET with its word, which keeps the fault record (`10_state.md` R24,
`70_reset_and_hazards.md` R94). That RESET leaves `events` and `draw` is the model's choice, since they are no block state
(notes/assumptions/1.md and 7.md). -/
def Obligations.PowerOnAndResetGiveTheResetValues : Prop :=
  (State.reset.counter = 0 ∧ State.reset.seenA = false ∧ State.reset.seenB = false ∧ State.reset.lastA = 0 ∧
    State.reset.lastB = 0 ∧ State.reset.hbFlag = false ∧ State.reset.hbLast = 0 ∧ State.reset.frameBusy = false ∧
    State.reset.frameIdx = 0 ∧ State.reset.frameDigit = 0 ∧ State.reset.encWord = 0 ∧ State.reset.fault = []) ∧
  (∀ s : State, exec .reset s = .next { State.reset with
    fault := s.fault, hist := s.hist, events := s.events, draw := s.draw }) ∧
  encode .reset = 0x7000000000000000

/-- After RESET the first edge of either button is accepted whatever its time, and no further word of an abandoned frame
leaves until a new FRAME (`70_reset_and_hazards.md` R94). -/
def Obligations.ResetRearmsButtonsAndAbandonsTheFrame : Prop :=
  ∀ s : State,
    (∀ ts, ∃ t, execAll [.reset, .edgeA ts] s = .next t ∧ t.counter.toNat = 1 ∧ t.seenA = true ∧ t.lastA = ts) ∧
    (∀ ts, ∃ t, execAll [.reset, .edgeB ts] s = .next t ∧ t.counter.toNat = 0 ∧ t.seenB = true ∧ t.lastB = ts) ∧
    (∀ is : List Instr, (∀ i ∈ is, i ≠ .frame) →
      ∃ t, execAll (.reset :: is) s = .next t ∧ t.hist = s.hist ∧ t.frameBusy = false)

/-- The power-on state is legal (`10_state.md` R12, R24). -/
def Obligations.PowerOnStateIsLegal : Prop := State.reset.Legal

/-- Every step keeps the state legal (`10_state.md` R12, R14, R16, R18, R19; `43_digit_compositor.md` R68). -/
def Obligations.StepKeepsTheStateLegal : Prop :=
  ∀ s t : State, s.Legal → step s = .next t → t.Legal

/-- In a legal state no step faults, none draws a free value, and none adds to the fault record
(`43_digit_compositor.md` R70: "The check can never fire in a state reached from reset"). -/
def Obligations.LegalStateNeverFaults : Prop :=
  ∀ s : State, s.Legal →
    (∀ f, step s ≠ .fault f) ∧ (∀ t, step s = .next t → t.fault = s.fault ∧ t.draw = s.draw)

/-- From power-on any list of events runs to its end without a fault, and leaves the counter within 0..9; a counter above
9 can only come from elsewhere, and FRAME faults on it (`10_state.md` R14, which the spec marks as derived from R24, R75
and R76). -/
def Obligations.CounterStaysADigitFromPowerOn : Prop :=
  (∀ is : List Instr, ∃ t, execAll is State.reset = .next t ∧ t.counter.toNat ≤ 9 ∧ t.fault = []) ∧
  (∀ s : State, s.frameBusy = false → 9 < s.counter.toNat → ∃ t, exec .frame s = .fault (.digitRange t))

/-- The record starts empty, a fault appends its kind and changes nothing else, no other event touches it, and a state
with an entry is never final (`10_state.md` R20). That a fault's outcome carries the state it leaves is the form of
notes/assumptions/4.md. -/
def Obligations.FaultAppendsItsKindAndNothingRemovesIt : Prop :=
  State.reset.fault = [] ∧
  (∀ (i : Instr) (s : State) (f : Fault), exec i s = .fault f →
    f = .digitRange { s with fault := s.fault ++ [.digitRange] }) ∧
  (∀ (i : Instr) (s t : State), exec i s = .next t → t.fault = s.fault) ∧
  (∀ s : State, s.mayBeFinal = true ↔ s.fault = [])

/-- Along any sequence of words, faulting and refused ones among them, the record only grows, so that a state that has
faulted never becomes final (`10_state.md` R20). That a sequence goes on after a fault or a refusal is the model's reading
(notes/assumptions/4.md and 6.md). -/
def Obligations.FaultRecordOnlyGrowsAlongASequence : Prop :=
  ∀ (s : State) (ws : List EventWord), s.fault <+: (feed s ws).fault ∧
    (s.mayBeFinal = false → (feed s ws).mayBeFinal = false)

/-- The agents and the events each gives, so that each event has one giver (`60_exceptions.md` R89). -/
def Obligations.EachEventHasOneGivingAgent : Prop :=
  (∀ m : Mnemonic, ∃ agent : Agent, agent.gives m = true ∧ ∀ other : Agent, other.gives m = true → other = agent) ∧
  (∀ m, (Agent.buttonLineA.gives m = true ↔ m = .edgeA) ∧ (Agent.buttonLineB.gives m = true ↔ m = .edgeB) ∧
    (Agent.tickSource.gives m = true ↔ m = .tick) ∧ (Agent.frameRequester.gives m = true ↔ m = .frame) ∧
    (Agent.transport.gives m = true ↔ m = .accept) ∧ (Agent.host.gives m = true ↔ m = .reset ∨ m = .encode))
end

