-- ==== Sys2Proof/Laws/Decode.lean ====
section
/-! SUPPORT. The fields of a word as numbers, the words of events as numbers, and the decoder case by case. -/

namespace Sys2Proof

/-! Fields of a word -/

theorem opField_toNat (w : EventWord) : (opField w).toNat = w.toNat / 2 ^ 60 := by
  have := w.isLt
  simp only [opField, BitVec.extractLsb'_toNat, Nat.shiftRight_eq_div_pow]
  omega

theorem reservedT_toNat (w : EventWord) : (reservedT w).toNat = w.toNat / 2 ^ 32 % 2 ^ 28 := by
  simp only [reservedT, BitVec.extractLsb'_toNat, Nat.shiftRight_eq_div_pow]

theorem reservedN_toNat (w : EventWord) : (reservedN w).toNat = w.toNat % 2 ^ 60 := by
  simp only [reservedN, BitVec.extractLsb'_toNat, Nat.shiftRight_eq_div_pow, Nat.pow_zero, Nat.div_one]

theorem reservedC_toNat (w : EventWord) : (reservedC w).toNat = w.toNat / 2 ^ 51 % 2 ^ 9 := by
  simp only [reservedC, BitVec.extractLsb'_toNat, Nat.shiftRight_eq_div_pow]

theorem tsField_toNat (w : EventWord) : (tsField w).toNat = w.toNat % 2 ^ 32 := by
  simp only [tsField, BitVec.extractLsb'_toNat, Nat.shiftRight_eq_div_pow, Nat.pow_zero, Nat.div_one]

theorem gField_toNat (w : EventWord) : (gField w).toNat = w.toNat / 2 ^ 34 % 2 ^ 17 := by
  simp only [gField, BitVec.extractLsb'_toNat, Nat.shiftRight_eq_div_pow]

theorem rField_toNat (w : EventWord) : (rField w).toNat = w.toNat / 2 ^ 17 % 2 ^ 17 := by
  simp only [rField, BitVec.extractLsb'_toNat, Nat.shiftRight_eq_div_pow]

theorem bField_toNat (w : EventWord) : (bField w).toNat = w.toNat % 2 ^ 17 := by
  simp only [bField, BitVec.extractLsb'_toNat, Nat.shiftRight_eq_div_pow, Nat.pow_zero, Nat.div_one]

/-! Words of events -/

theorem append_toNat {m n : Nat} (x : BitVec m) (y : BitVec n) : (x ++ y).toNat = x.toNat * 2 ^ n + y.toNat := by
  rw [BitVec.toNat_append, ← Nat.shiftLeft_add_eq_or_of_lt y.isLt, Nat.shiftLeft_eq]

theorem encodeT_toNat (op : BitVec 4) (ts : Timestamp) : (encodeT op ts).toNat = op.toNat * 2 ^ 60 + ts.toNat := by
  unfold encodeT
  rw [append_toNat, append_toNat]
  simp

theorem encodeN_toNat (op : BitVec 4) : (encodeN op).toNat = op.toNat * 2 ^ 60 := by
  unfold encodeN
  rw [append_toNat]
  simp

theorem encodeC_toNat (op : BitVec 4) (g r b : Channel) :
    (encodeC op g r b).toNat = op.toNat * 2 ^ 60 + g.toNat * 2 ^ 34 + r.toNat * 2 ^ 17 + b.toNat := by
  unfold encodeC
  rw [append_toNat, append_toNat, append_toNat, append_toNat]
  simp only [BitVec.toNat_ofNat]
  omega

/-! Fields of the words of events -/

theorem opField_encodeT (op : BitVec 4) (ts : Timestamp) : opField (encodeT op ts) = op := by
  apply BitVec.eq_of_toNat_eq
  rw [opField_toNat, encodeT_toNat]
  have := ts.isLt
  omega

theorem reservedT_encodeT (op : BitVec 4) (ts : Timestamp) : reservedT (encodeT op ts) = 0 := by
  apply BitVec.eq_of_toNat_eq
  rw [reservedT_toNat, encodeT_toNat]
  have := ts.isLt
  have zero : ∀ n : Nat, (0 : BitVec n).toNat = 0 := fun n => by simp
  rw [zero]
  omega

theorem tsField_encodeT (op : BitVec 4) (ts : Timestamp) : tsField (encodeT op ts) = ts := by
  apply BitVec.eq_of_toNat_eq
  rw [tsField_toNat, encodeT_toNat]
  have := ts.isLt
  omega

theorem opField_encodeN (op : BitVec 4) : opField (encodeN op) = op := by
  apply BitVec.eq_of_toNat_eq
  rw [opField_toNat, encodeN_toNat]
  omega

theorem reservedN_encodeN (op : BitVec 4) : reservedN (encodeN op) = 0 := by
  apply BitVec.eq_of_toNat_eq
  rw [reservedN_toNat, encodeN_toNat]
  have zero : ∀ n : Nat, (0 : BitVec n).toNat = 0 := fun n => by simp
  rw [zero]
  omega

theorem opField_encodeC (op : BitVec 4) (g r b : Channel) : opField (encodeC op g r b) = op := by
  have := g.isLt; have := r.isLt; have := b.isLt
  apply BitVec.eq_of_toNat_eq
  rw [opField_toNat, encodeC_toNat]
  omega

theorem reservedC_encodeC (op : BitVec 4) (g r b : Channel) : reservedC (encodeC op g r b) = 0 := by
  have := g.isLt; have := r.isLt; have := b.isLt
  apply BitVec.eq_of_toNat_eq
  rw [reservedC_toNat, encodeC_toNat]
  have zero : ∀ n : Nat, (0 : BitVec n).toNat = 0 := fun n => by simp
  rw [zero]
  omega

theorem gField_encodeC (op : BitVec 4) (g r b : Channel) : gField (encodeC op g r b) = g := by
  have := g.isLt; have := r.isLt; have := b.isLt
  apply BitVec.eq_of_toNat_eq
  rw [gField_toNat, encodeC_toNat]
  omega

theorem rField_encodeC (op : BitVec 4) (g r b : Channel) : rField (encodeC op g r b) = r := by
  have := g.isLt; have := r.isLt; have := b.isLt
  apply BitVec.eq_of_toNat_eq
  rw [rField_toNat, encodeC_toNat]
  omega

theorem bField_encodeC (op : BitVec 4) (g r b : Channel) : bField (encodeC op g r b) = b := by
  have := g.isLt; have := r.isLt; have := b.isLt
  apply BitVec.eq_of_toNat_eq
  rw [bField_toNat, encodeC_toNat]
  omega

/-! Fields against numbers -/

theorem opField_eq_iff (w : EventWord) (k : BitVec 4) : opField w = k ↔ w.toNat / 2 ^ 60 = k.toNat := by
  rw [← opField_toNat, ← BitVec.toNat_inj]

theorem reservedT_eq_zero_iff (w : EventWord) : reservedT w = 0 ↔ w.toNat / 2 ^ 32 % 2 ^ 28 = 0 := by
  rw [← reservedT_toNat, ← BitVec.toNat_inj]; rfl

theorem reservedN_eq_zero_iff (w : EventWord) : reservedN w = 0 ↔ w.toNat % 2 ^ 60 = 0 := by
  rw [← reservedN_toNat, ← BitVec.toNat_inj]; rfl

theorem reservedC_eq_zero_iff (w : EventWord) : reservedC w = 0 ↔ w.toNat / 2 ^ 51 % 2 ^ 9 = 0 := by
  rw [← reservedC_toNat, ← BitVec.toNat_inj]; rfl

/-- A word under a mask that keeps its bits from `n` up, as a number. -/
theorem and_highMask_toNat (w m : EventWord) (n : Nat) (hn : n ≤ 64) (hm : m.toNat = (2 ^ (64 - n) - 1) * 2 ^ n) :
    (w &&& m).toNat = w.toNat / 2 ^ n * 2 ^ n := by
  rw [BitVec.toNat_and, hm, ← Nat.shiftLeft_eq, ← Nat.shiftLeft_eq]
  apply Nat.eq_of_testBit_eq
  intro i
  rw [Nat.testBit_and, Nat.testBit_shiftLeft, Nat.testBit_shiftLeft, Nat.testBit_two_pow_sub_one,
    Nat.testBit_div_two_pow]
  rcases Nat.lt_or_ge i n with h | h
  · simp [Nat.not_le.mpr h]
  · have e : n + (i - n) = i := by omega
    rcases Nat.lt_or_ge i 64 with h' | h'
    · have : i - n < 64 - n := by omega
      simp [h, this, Nat.add_comm (i - n), e]
    · have : w.toNat.testBit i = false := Nat.testBit_lt_two_pow (w.isLt.trans_le (Nat.pow_le_pow_right (by decide) h'))
      simp [this, Nat.add_comm (i - n), e]

/-! The decoder, case by case -/

theorem decodeT_eq_event {event : Timestamp → Instr} {w : EventWord} {i : Instr} :
    decodeT event w = .event i ↔ reservedT w = 0 ∧ i = event (tsField w) := by
  unfold decodeT
  split <;> simp_all [eq_comm]

theorem decodeN_eq_event {event : Instr} {w : EventWord} {i : Instr} :
    decodeN event w = .event i ↔ reservedN w = 0 ∧ i = event := by
  unfold decodeN
  split <;> simp_all [eq_comm]

theorem decodeC_eq_event {w : EventWord} {i : Instr} :
    decodeC w = .event i ↔ reservedC w = 0 ∧ i = .encode (gField w) (rField w) (bField w) := by
  unfold decodeC
  split <;> simp_all [eq_comm]

/-- All that the decoder can read as an event: the opcode fixes the event, and the format's reserved bits are 0. -/
theorem decode_event_cases {w : EventWord} {i : Instr} (h : decode w = .event i) :
    (opField w = 1 ∧ reservedT w = 0 ∧ i = .edgeA (tsField w)) ∨
    (opField w = 2 ∧ reservedT w = 0 ∧ i = .edgeB (tsField w)) ∨
    (opField w = 3 ∧ reservedT w = 0 ∧ i = .tick (tsField w)) ∨
    (opField w = 4 ∧ reservedN w = 0 ∧ i = .frame) ∨
    (opField w = 5 ∧ reservedN w = 0 ∧ i = .accept) ∨
    (opField w = 6 ∧ reservedC w = 0 ∧ i = .encode (gField w) (rField w) (bField w)) ∨
    (opField w = 7 ∧ reservedN w = 0 ∧ i = .reset) := by
  unfold decode at h
  split at h
  · rw [decodeT_eq_event] at h; simp_all
  split at h
  · rw [decodeT_eq_event] at h; simp_all
  split at h
  · rw [decodeT_eq_event] at h; simp_all
  split at h
  · rw [decodeN_eq_event] at h; simp_all
  split at h
  · rw [decodeN_eq_event] at h; simp_all
  split at h
  · rw [decodeC_eq_event] at h; simp_all
  split at h
  · rw [decodeN_eq_event] at h; simp_all
  · simp at h

end Sys2Proof
end

