-- ==== Sys2Proof/Laws/State.lean ====
section
/-! SUPPORT. What each named update of State leaves alone and what it sets, one lemma per field per update. -/

namespace Sys2Proof.Machine.State

/-! `markAccepted` -/

@[simp] theorem markAccepted_counter (s : State) (x : Button) (t : Timestamp) : (s.markAccepted x t).counter = s.counter := by cases x <;> rfl
@[simp] theorem markAccepted_hbFlag (s : State) (x : Button) (t : Timestamp) : (s.markAccepted x t).hbFlag = s.hbFlag := by cases x <;> rfl
@[simp] theorem markAccepted_hbLast (s : State) (x : Button) (t : Timestamp) : (s.markAccepted x t).hbLast = s.hbLast := by cases x <;> rfl
@[simp] theorem markAccepted_frameBusy (s : State) (x : Button) (t : Timestamp) : (s.markAccepted x t).frameBusy = s.frameBusy := by cases x <;> rfl
@[simp] theorem markAccepted_frameIdx (s : State) (x : Button) (t : Timestamp) : (s.markAccepted x t).frameIdx = s.frameIdx := by cases x <;> rfl
@[simp] theorem markAccepted_frameDigit (s : State) (x : Button) (t : Timestamp) : (s.markAccepted x t).frameDigit = s.frameDigit := by cases x <;> rfl
@[simp] theorem markAccepted_encWord (s : State) (x : Button) (t : Timestamp) : (s.markAccepted x t).encWord = s.encWord := by cases x <;> rfl
@[simp] theorem markAccepted_fault (s : State) (x : Button) (t : Timestamp) : (s.markAccepted x t).fault = s.fault := by cases x <;> rfl
@[simp] theorem markAccepted_hist (s : State) (x : Button) (t : Timestamp) : (s.markAccepted x t).hist = s.hist := by cases x <;> rfl
@[simp] theorem markAccepted_events (s : State) (x : Button) (t : Timestamp) : (s.markAccepted x t).events = s.events := by cases x <;> rfl
@[simp] theorem markAccepted_draw (s : State) (x : Button) (t : Timestamp) : (s.markAccepted x t).draw = s.draw := by cases x <;> rfl

/-! `countUp` -/

@[simp] theorem countUp_seenA (s : State) : (s.countUp).seenA = s.seenA := by unfold State.countUp; split <;> rfl
@[simp] theorem countUp_seenB (s : State) : (s.countUp).seenB = s.seenB := by unfold State.countUp; split <;> rfl
@[simp] theorem countUp_lastA (s : State) : (s.countUp).lastA = s.lastA := by unfold State.countUp; split <;> rfl
@[simp] theorem countUp_lastB (s : State) : (s.countUp).lastB = s.lastB := by unfold State.countUp; split <;> rfl
@[simp] theorem countUp_hbFlag (s : State) : (s.countUp).hbFlag = s.hbFlag := by unfold State.countUp; split <;> rfl
@[simp] theorem countUp_hbLast (s : State) : (s.countUp).hbLast = s.hbLast := by unfold State.countUp; split <;> rfl
@[simp] theorem countUp_frameBusy (s : State) : (s.countUp).frameBusy = s.frameBusy := by unfold State.countUp; split <;> rfl
@[simp] theorem countUp_frameIdx (s : State) : (s.countUp).frameIdx = s.frameIdx := by unfold State.countUp; split <;> rfl
@[simp] theorem countUp_frameDigit (s : State) : (s.countUp).frameDigit = s.frameDigit := by unfold State.countUp; split <;> rfl
@[simp] theorem countUp_encWord (s : State) : (s.countUp).encWord = s.encWord := by unfold State.countUp; split <;> rfl
@[simp] theorem countUp_fault (s : State) : (s.countUp).fault = s.fault := by unfold State.countUp; split <;> rfl
@[simp] theorem countUp_hist (s : State) : (s.countUp).hist = s.hist := by unfold State.countUp; split <;> rfl
@[simp] theorem countUp_events (s : State) : (s.countUp).events = s.events := by unfold State.countUp; split <;> rfl
@[simp] theorem countUp_draw (s : State) : (s.countUp).draw = s.draw := by unfold State.countUp; split <;> rfl

/-! `countDown` -/

@[simp] theorem countDown_seenA (s : State) : (s.countDown).seenA = s.seenA := by unfold State.countDown; split <;> rfl
@[simp] theorem countDown_seenB (s : State) : (s.countDown).seenB = s.seenB := by unfold State.countDown; split <;> rfl
@[simp] theorem countDown_lastA (s : State) : (s.countDown).lastA = s.lastA := by unfold State.countDown; split <;> rfl
@[simp] theorem countDown_lastB (s : State) : (s.countDown).lastB = s.lastB := by unfold State.countDown; split <;> rfl
@[simp] theorem countDown_hbFlag (s : State) : (s.countDown).hbFlag = s.hbFlag := by unfold State.countDown; split <;> rfl
@[simp] theorem countDown_hbLast (s : State) : (s.countDown).hbLast = s.hbLast := by unfold State.countDown; split <;> rfl
@[simp] theorem countDown_frameBusy (s : State) : (s.countDown).frameBusy = s.frameBusy := by unfold State.countDown; split <;> rfl
@[simp] theorem countDown_frameIdx (s : State) : (s.countDown).frameIdx = s.frameIdx := by unfold State.countDown; split <;> rfl
@[simp] theorem countDown_frameDigit (s : State) : (s.countDown).frameDigit = s.frameDigit := by unfold State.countDown; split <;> rfl
@[simp] theorem countDown_encWord (s : State) : (s.countDown).encWord = s.encWord := by unfold State.countDown; split <;> rfl
@[simp] theorem countDown_fault (s : State) : (s.countDown).fault = s.fault := by unfold State.countDown; split <;> rfl
@[simp] theorem countDown_hist (s : State) : (s.countDown).hist = s.hist := by unfold State.countDown; split <;> rfl
@[simp] theorem countDown_events (s : State) : (s.countDown).events = s.events := by unfold State.countDown; split <;> rfl
@[simp] theorem countDown_draw (s : State) : (s.countDown).draw = s.draw := by unfold State.countDown; split <;> rfl

/-! `recordFault` -/

@[simp] theorem recordFault_counter (s : State) (k : FaultKind) : (s.recordFault k).counter = s.counter := rfl
@[simp] theorem recordFault_seenA (s : State) (k : FaultKind) : (s.recordFault k).seenA = s.seenA := rfl
@[simp] theorem recordFault_seenB (s : State) (k : FaultKind) : (s.recordFault k).seenB = s.seenB := rfl
@[simp] theorem recordFault_lastA (s : State) (k : FaultKind) : (s.recordFault k).lastA = s.lastA := rfl
@[simp] theorem recordFault_lastB (s : State) (k : FaultKind) : (s.recordFault k).lastB = s.lastB := rfl
@[simp] theorem recordFault_hbFlag (s : State) (k : FaultKind) : (s.recordFault k).hbFlag = s.hbFlag := rfl
@[simp] theorem recordFault_hbLast (s : State) (k : FaultKind) : (s.recordFault k).hbLast = s.hbLast := rfl
@[simp] theorem recordFault_frameBusy (s : State) (k : FaultKind) : (s.recordFault k).frameBusy = s.frameBusy := rfl
@[simp] theorem recordFault_frameIdx (s : State) (k : FaultKind) : (s.recordFault k).frameIdx = s.frameIdx := rfl
@[simp] theorem recordFault_frameDigit (s : State) (k : FaultKind) : (s.recordFault k).frameDigit = s.frameDigit := rfl
@[simp] theorem recordFault_encWord (s : State) (k : FaultKind) : (s.recordFault k).encWord = s.encWord := rfl
@[simp] theorem recordFault_hist (s : State) (k : FaultKind) : (s.recordFault k).hist = s.hist := rfl
@[simp] theorem recordFault_events (s : State) (k : FaultKind) : (s.recordFault k).events = s.events := rfl
@[simp] theorem recordFault_draw (s : State) (k : FaultKind) : (s.recordFault k).draw = s.draw := rfl

/-! `transfer` -/

@[simp] theorem transfer_counter (s : State) (w : PixelWord) : (s.transfer w).counter = s.counter := rfl
@[simp] theorem transfer_seenA (s : State) (w : PixelWord) : (s.transfer w).seenA = s.seenA := rfl
@[simp] theorem transfer_seenB (s : State) (w : PixelWord) : (s.transfer w).seenB = s.seenB := rfl
@[simp] theorem transfer_lastA (s : State) (w : PixelWord) : (s.transfer w).lastA = s.lastA := rfl
@[simp] theorem transfer_lastB (s : State) (w : PixelWord) : (s.transfer w).lastB = s.lastB := rfl
@[simp] theorem transfer_hbFlag (s : State) (w : PixelWord) : (s.transfer w).hbFlag = s.hbFlag := rfl
@[simp] theorem transfer_hbLast (s : State) (w : PixelWord) : (s.transfer w).hbLast = s.hbLast := rfl
@[simp] theorem transfer_frameBusy (s : State) (w : PixelWord) : (s.transfer w).frameBusy = s.frameBusy := rfl
@[simp] theorem transfer_frameIdx (s : State) (w : PixelWord) : (s.transfer w).frameIdx = s.frameIdx := rfl
@[simp] theorem transfer_frameDigit (s : State) (w : PixelWord) : (s.transfer w).frameDigit = s.frameDigit := rfl
@[simp] theorem transfer_encWord (s : State) (w : PixelWord) : (s.transfer w).encWord = s.encWord := rfl
@[simp] theorem transfer_fault (s : State) (w : PixelWord) : (s.transfer w).fault = s.fault := rfl
@[simp] theorem transfer_events (s : State) (w : PixelWord) : (s.transfer w).events = s.events := rfl
@[simp] theorem transfer_draw (s : State) (w : PixelWord) : (s.transfer w).draw = s.draw := rfl

/-! `advanceFrame` -/

@[simp] theorem advanceFrame_counter (s : State) : (s.advanceFrame).counter = s.counter := by unfold State.advanceFrame; (repeat' split) <;> rfl
@[simp] theorem advanceFrame_seenA (s : State) : (s.advanceFrame).seenA = s.seenA := by unfold State.advanceFrame; (repeat' split) <;> rfl
@[simp] theorem advanceFrame_seenB (s : State) : (s.advanceFrame).seenB = s.seenB := by unfold State.advanceFrame; (repeat' split) <;> rfl
@[simp] theorem advanceFrame_lastA (s : State) : (s.advanceFrame).lastA = s.lastA := by unfold State.advanceFrame; (repeat' split) <;> rfl
@[simp] theorem advanceFrame_lastB (s : State) : (s.advanceFrame).lastB = s.lastB := by unfold State.advanceFrame; (repeat' split) <;> rfl
@[simp] theorem advanceFrame_hbFlag (s : State) : (s.advanceFrame).hbFlag = s.hbFlag := by unfold State.advanceFrame; (repeat' split) <;> rfl
@[simp] theorem advanceFrame_hbLast (s : State) : (s.advanceFrame).hbLast = s.hbLast := by unfold State.advanceFrame; (repeat' split) <;> rfl
@[simp] theorem advanceFrame_frameDigit (s : State) : (s.advanceFrame).frameDigit = s.frameDigit := by unfold State.advanceFrame; (repeat' split) <;> rfl
@[simp] theorem advanceFrame_encWord (s : State) : (s.advanceFrame).encWord = s.encWord := by unfold State.advanceFrame; (repeat' split) <;> rfl
@[simp] theorem advanceFrame_fault (s : State) : (s.advanceFrame).fault = s.fault := by unfold State.advanceFrame; (repeat' split) <;> rfl
@[simp] theorem advanceFrame_hist (s : State) : (s.advanceFrame).hist = s.hist := by unfold State.advanceFrame; (repeat' split) <;> rfl
@[simp] theorem advanceFrame_events (s : State) : (s.advanceFrame).events = s.events := by unfold State.advanceFrame; (repeat' split) <;> rfl
@[simp] theorem advanceFrame_draw (s : State) : (s.advanceFrame).draw = s.draw := by unfold State.advanceFrame; (repeat' split) <;> rfl

/-! `countDraw` -/

@[simp] theorem countDraw_counter (s : State) (drew : Bool) : (s.countDraw drew).counter = s.counter := by cases drew <;> rfl
@[simp] theorem countDraw_seenA (s : State) (drew : Bool) : (s.countDraw drew).seenA = s.seenA := by cases drew <;> rfl
@[simp] theorem countDraw_seenB (s : State) (drew : Bool) : (s.countDraw drew).seenB = s.seenB := by cases drew <;> rfl
@[simp] theorem countDraw_lastA (s : State) (drew : Bool) : (s.countDraw drew).lastA = s.lastA := by cases drew <;> rfl
@[simp] theorem countDraw_lastB (s : State) (drew : Bool) : (s.countDraw drew).lastB = s.lastB := by cases drew <;> rfl
@[simp] theorem countDraw_hbFlag (s : State) (drew : Bool) : (s.countDraw drew).hbFlag = s.hbFlag := by cases drew <;> rfl
@[simp] theorem countDraw_hbLast (s : State) (drew : Bool) : (s.countDraw drew).hbLast = s.hbLast := by cases drew <;> rfl
@[simp] theorem countDraw_frameBusy (s : State) (drew : Bool) : (s.countDraw drew).frameBusy = s.frameBusy := by cases drew <;> rfl
@[simp] theorem countDraw_frameIdx (s : State) (drew : Bool) : (s.countDraw drew).frameIdx = s.frameIdx := by cases drew <;> rfl
@[simp] theorem countDraw_frameDigit (s : State) (drew : Bool) : (s.countDraw drew).frameDigit = s.frameDigit := by cases drew <;> rfl
@[simp] theorem countDraw_encWord (s : State) (drew : Bool) : (s.countDraw drew).encWord = s.encWord := by cases drew <;> rfl
@[simp] theorem countDraw_fault (s : State) (drew : Bool) : (s.countDraw drew).fault = s.fault := by cases drew <;> rfl
@[simp] theorem countDraw_hist (s : State) (drew : Bool) : (s.countDraw drew).hist = s.hist := by cases drew <;> rfl
@[simp] theorem countDraw_events (s : State) (drew : Bool) : (s.countDraw drew).events = s.events := by cases drew <;> rfl

/-! `withEvents` -/

@[simp] theorem withEvents_counter (s : State) (es : List EventWord) : (s.withEvents es).counter = s.counter := rfl
@[simp] theorem withEvents_seenA (s : State) (es : List EventWord) : (s.withEvents es).seenA = s.seenA := rfl
@[simp] theorem withEvents_seenB (s : State) (es : List EventWord) : (s.withEvents es).seenB = s.seenB := rfl
@[simp] theorem withEvents_lastA (s : State) (es : List EventWord) : (s.withEvents es).lastA = s.lastA := rfl
@[simp] theorem withEvents_lastB (s : State) (es : List EventWord) : (s.withEvents es).lastB = s.lastB := rfl
@[simp] theorem withEvents_hbFlag (s : State) (es : List EventWord) : (s.withEvents es).hbFlag = s.hbFlag := rfl
@[simp] theorem withEvents_hbLast (s : State) (es : List EventWord) : (s.withEvents es).hbLast = s.hbLast := rfl
@[simp] theorem withEvents_frameBusy (s : State) (es : List EventWord) : (s.withEvents es).frameBusy = s.frameBusy := rfl
@[simp] theorem withEvents_frameIdx (s : State) (es : List EventWord) : (s.withEvents es).frameIdx = s.frameIdx := rfl
@[simp] theorem withEvents_frameDigit (s : State) (es : List EventWord) : (s.withEvents es).frameDigit = s.frameDigit := rfl
@[simp] theorem withEvents_encWord (s : State) (es : List EventWord) : (s.withEvents es).encWord = s.encWord := rfl
@[simp] theorem withEvents_fault (s : State) (es : List EventWord) : (s.withEvents es).fault = s.fault := rfl
@[simp] theorem withEvents_hist (s : State) (es : List EventWord) : (s.withEvents es).hist = s.hist := rfl
@[simp] theorem withEvents_draw (s : State) (es : List EventWord) : (s.withEvents es).draw = s.draw := rfl

/-! `pushTableWord` -/

@[simp] theorem pushTableWord_counter (s : State) (nbits w : Nat) : (s.pushTableWord nbits w).counter = s.counter := rfl
@[simp] theorem pushTableWord_seenA (s : State) (nbits w : Nat) : (s.pushTableWord nbits w).seenA = s.seenA := rfl
@[simp] theorem pushTableWord_seenB (s : State) (nbits w : Nat) : (s.pushTableWord nbits w).seenB = s.seenB := rfl
@[simp] theorem pushTableWord_lastA (s : State) (nbits w : Nat) : (s.pushTableWord nbits w).lastA = s.lastA := rfl
@[simp] theorem pushTableWord_lastB (s : State) (nbits w : Nat) : (s.pushTableWord nbits w).lastB = s.lastB := rfl
@[simp] theorem pushTableWord_hbFlag (s : State) (nbits w : Nat) : (s.pushTableWord nbits w).hbFlag = s.hbFlag := rfl
@[simp] theorem pushTableWord_hbLast (s : State) (nbits w : Nat) : (s.pushTableWord nbits w).hbLast = s.hbLast := rfl
@[simp] theorem pushTableWord_frameBusy (s : State) (nbits w : Nat) : (s.pushTableWord nbits w).frameBusy = s.frameBusy := rfl
@[simp] theorem pushTableWord_frameIdx (s : State) (nbits w : Nat) : (s.pushTableWord nbits w).frameIdx = s.frameIdx := rfl
@[simp] theorem pushTableWord_frameDigit (s : State) (nbits w : Nat) : (s.pushTableWord nbits w).frameDigit = s.frameDigit := rfl
@[simp] theorem pushTableWord_encWord (s : State) (nbits w : Nat) : (s.pushTableWord nbits w).encWord = s.encWord := rfl
@[simp] theorem pushTableWord_fault (s : State) (nbits w : Nat) : (s.pushTableWord nbits w).fault = s.fault := rfl
@[simp] theorem pushTableWord_hist (s : State) (nbits w : Nat) : (s.pushTableWord nbits w).hist = s.hist := rfl
@[simp] theorem pushTableWord_draw (s : State) (nbits w : Nat) : (s.pushTableWord nbits w).draw = s.draw := rfl

/-! What the updates set. -/

@[simp] theorem markAccepted_seen (s : State) (x : Button) (t : Timestamp) : (s.markAccepted x t).seen x = true := by
  cases x <;> rfl
@[simp] theorem markAccepted_last (s : State) (x : Button) (t : Timestamp) : (s.markAccepted x t).last x = t := by
  cases x <;> rfl
theorem markAccepted_seen_other (s : State) (x y : Button) (t : Timestamp) (h : y ≠ x) :
    (s.markAccepted x t).seen y = s.seen y := by
  cases x <;> cases y <;> first | rfl | exact absurd rfl h
theorem markAccepted_last_other (s : State) (x y : Button) (t : Timestamp) (h : y ≠ x) :
    (s.markAccepted x t).last y = s.last y := by
  cases x <;> cases y <;> first | rfl | exact absurd rfl h
@[simp] theorem recordFault_fault (s : State) (k : FaultKind) : (s.recordFault k).fault = s.fault ++ [k] := rfl
@[simp] theorem transfer_hist (s : State) (w : PixelWord) : (s.transfer w).hist = s.hist ++ [w] := rfl
@[simp] theorem countDraw_draw (s : State) (drew : Bool) :
    (s.countDraw drew).draw = if drew then s.draw + 1 else s.draw := by cases drew <;> rfl
@[simp] theorem pushTableWord_events (s : State) (nbits w : Nat) :
    (s.pushTableWord nbits w).events = tableWord nbits w :: s.events := rfl

@[simp] theorem withEvents_events (s : State) (es : List EventWord) : (s.withEvents es).events = es := rfl
@[simp] theorem withEvents_self (s : State) : s.withEvents s.events = s := rfl
@[simp] theorem withEvents_withEvents (s : State) (es fs : List EventWord) :
    (s.withEvents es).withEvents fs = s.withEvents fs := rfl

theorem countUp_counter (s : State) :
    s.countUp.counter.toNat = if s.counter.toNat < 9 then s.counter.toNat + 1 else s.counter.toNat := by
  have one : (1 : DigitReg).toNat = 1 := rfl
  unfold State.countUp
  split
  · simp only [BitVec.toNat_add, one]; omega
  · rfl

theorem countDown_counter (s : State) : s.countDown.counter.toNat = s.counter.toNat - 1 := by
  have one : (1 : DigitReg).toNat = 1 := rfl
  have := s.counter.isLt
  unfold State.countDown
  split
  · simp only [BitVec.toNat_sub, one]; omega
  · omega

theorem countUp_legal {s : State} (h : s.counter.toNat ≤ 9) : s.countUp.counter.toNat ≤ 9 := by
  rw [countUp_counter]; split <;> omega

theorem countDown_legal {s : State} (h : s.counter.toNat ≤ 9) : s.countDown.counter.toNat ≤ 9 := by
  rw [countDown_counter]; omega

theorem advanceFrame_last {s : State} (h : s.frameIdx.toNat = 24) :
    s.advanceFrame = { s with frameBusy := false, frameIdx := 0 } := by simp [advanceFrame, h]

theorem advanceFrame_next {s : State} (h : s.frameIdx.toNat < 24) :
    s.advanceFrame.frameBusy = s.frameBusy ∧ s.advanceFrame.frameIdx.toNat = s.frameIdx.toNat + 1 := by
  have h24 : s.frameIdx.toNat ≠ 24 := by omega
  have h31 : s.frameIdx.toNat ≠ 31 := by omega
  have one : (1 : IdxReg).toNat = 1 := rfl
  simp only [advanceFrame, h24, h31, if_false, true_and, BitVec.toNat_add, one]
  omega

end Sys2Proof.Machine.State
end

