-- ==== Sys2Proof/Laws/Ops.lean ====
section
/-! SUPPORT. What each shared operation over operands, channels and edges can do, said once. -/

namespace Sys2Proof.Machine

/-! Time -/

theorem elapsed_toNat (now last : Timestamp) : (elapsed now last).toNat = msBetween last now := by
  have := last.isLt
  simp only [elapsed, msBetween, BitVec.toNat_sub]
  omega

/-! Pixel words -/

theorem packGRB_toNat (g r b : Byte) :
    (packGRB g r b).toNat = g.toNat * 2 ^ 16 + r.toNat * 2 ^ 8 + b.toNat := by
  have hg := g.isLt
  have hr := r.isLt
  have hb := b.isLt
  have e : g.toNat <<< 16 ||| r.toNat <<< 8 = (g.toNat * 2 ^ 8 + r.toNat) <<< 8 := by
    have : g.toNat <<< 16 = (g.toNat <<< 8) <<< 8 := by rw [← Nat.shiftLeft_add]
    rw [this, ← Nat.shiftLeft_or_distrib, ← Nat.shiftLeft_add_eq_or_of_lt hr, Nat.shiftLeft_eq g.toNat]
  have e' : (g.toNat * 2 ^ 8 + r.toNat) <<< 8 ||| b.toNat = (g.toNat * 2 ^ 8 + r.toNat) * 2 ^ 8 + b.toNat := by
    rw [← Nat.shiftLeft_add_eq_or_of_lt hb, Nat.shiftLeft_eq]
  have small : ∀ n k : Nat, n < 2 ^ 8 → k ≤ 16 → n <<< k % 2 ^ 32 = n <<< k := by
    intro n k hn hk
    rw [Nat.shiftLeft_eq]
    apply Nat.mod_eq_of_lt
    calc n * 2 ^ k < 2 ^ 8 * 2 ^ k := by exact Nat.mul_lt_mul_of_pos_right hn (Nat.two_pow_pos k)
      _ ≤ 2 ^ 8 * 2 ^ 16 := Nat.mul_le_mul_left _ (Nat.pow_le_pow_right (by decide) hk)
      _ ≤ 2 ^ 32 := by decide
  have wide : ∀ n : Nat, n < 2 ^ 8 → n % 2 ^ 32 = n := fun n hn => Nat.mod_eq_of_lt (by omega)
  simp only [packGRB, BitVec.toNat_or, BitVec.toNat_shiftLeft, BitVec.toNat_setWidth, wide _ hg, wide _ hr,
    wide _ hb, small _ 16 hg (by omega), small _ 8 hr (by omega), e, e']
  omega

theorem byteQ_toNat (v : Channel) : (byteQ v).toNat = min v.toNat 65536 * 255 / 2 ^ 16 := by
  have : min v.toNat 65536 * 255 / 2 ^ 16 < 2 ^ 8 := by omega
  simp only [byteQ, Config.channelFracBits, BitVec.toNat_ofNat, Nat.shiftRight_eq_div_pow]
  exact Nat.mod_eq_of_lt this

/-- The scaled byte lies in 0..255, so writing it into 8 bits drops nothing (`41_pixel_encoder.md` R51). -/
theorem byteOf_toNat (c : ℚ) : (byteOf c).toNat = ⌊clamp01 c * 255⌋.toNat := by
  have hle : clamp01 c * 255 < 256 := by
    have : clamp01 c ≤ 1 := min_le_right _ _
    linarith
  have : ⌊clamp01 c * 255⌋ < 256 := Int.floor_lt.mpr (by exact_mod_cast hle)
  simp only [byteOf, BitVec.toNat_ofNat]
  omega

theorem clamp01_of_mem {c : ℚ} (h0 : 0 ≤ c) (h1 : c ≤ 1) : clamp01 c = c := by
  simp [clamp01, max_eq_left h0, min_eq_left h1]

theorem clamp01_of_one_le {c : ℚ} (h : 1 ≤ c) : clamp01 c = 1 := by
  simp [clamp01, max_eq_left (zero_le_one.trans h), min_eq_right h]

theorem clamp01_of_nonpos {c : ℚ} (h : c ≤ 0) : clamp01 c = 0 := by
  simp [clamp01, max_eq_right h]

theorem cellWord_on_toNat (p : Params) : (cellWord p true).toNat = p.brightness.toNat * 2 ^ 8 := by
  have := p.brightness.isLt
  simp only [cellWord, if_true, BitVec.toNat_shiftLeft, BitVec.toNat_setWidth, Nat.shiftLeft_eq]
  omega

theorem cellWord_off (p : Params) : cellWord p false = 0 := rfl

theorem pixelWord_isCellWord (d : Fin 10) (k : Fin 25) : isCellWord (pixelWord Config.built d k) := by
  unfold isCellWord pixelWord
  cases glyphRead Config.built d (cell k).1 (cell k).2 <;> simp

/-! Edges -/

/-- An edge either changes nothing or marks its button and applies its effect. -/
theorem edge_eq (x : Button) (effect : State → State) (t : Timestamp) (s : State) :
    edge x effect t s =
      if s.seen x = true ∧ msBetween (s.last x) t ≤ 400 then s else effect (s.markAccepted x t) := by
  simp only [edge, debounce, State.edgeVerdict, elapsed_toNat, Config.debounceWindow]
  split <;> split <;> simp_all

/-! The presented word -/

theorem presentedWord_legal (p : Params) {s : State} (hd : s.frameDigit.toNat < 10) (hk : s.frameIdx.toNat < 25) :
    s.presentedWord p = pixelWord p ⟨s.frameDigit.toNat, hd⟩ ⟨s.frameIdx.toNat, hk⟩ := by
  exact dif_pos (⟨hd, hk⟩ : s.frameLegal)

/-- What the presented word depends on: the frame registers and, outside their legal values, the count of draws. -/
theorem presentedWord_congr (p : Params) {s t : State} (hd : t.frameDigit = s.frameDigit) (hk : t.frameIdx = s.frameIdx)
    (hn : t.draw = s.draw) : t.presentedWord p = s.presentedWord p := by
  obtain ⟨c, sa, sb, la, lb, hf, hl, fb, fi, fd, ew, fa, hi, ev, dr⟩ := t
  simp only at hd hk hn
  subst hd hk hn
  rfl

end Sys2Proof.Machine
end

