-- ==== Sys2Proof/Laws/Exec.lean ====
section
/-! SUPPORT. What each event can do, said once as an inversion, and what no event does. -/

namespace Sys2Proof.Machine

/-- The state an ACCEPT leaves, by cases of its sequencer. -/
theorem acceptWith_idle (p : Params) {s : State} (h : s.frameBusy = false) : acceptWith p s = s := by
  simp [acceptWith, h]

theorem acceptWith_busy (p : Params) {s : State} (h : s.frameBusy = true) :
    acceptWith p s =
      (State.advanceFrame (s.transfer (s.presentedWord p))).countDraw (decide ¬ s.frameLegal) := by
  simp [acceptWith, h]

/-- In a frame with legal registers ACCEPT draws no free value. -/
theorem acceptWith_legal (p : Params) {s : State} (h : s.frameBusy = true) (hl : s.frameLegal) :
    acceptWith p s = State.advanceFrame (s.transfer (s.presentedWord p)) := by
  simp [acceptWith_busy p h, hl, State.countDraw]

/-- `frame_busy` after an ACCEPT. -/
def busyAfterAccept (s : State) : Bool := if s.frameBusy then decide (s.frameIdx.toNat ≠ 24) else false

/-- `frame_idx` after an ACCEPT. -/
def idxAfterAccept (s : State) : IdxReg :=
  if s.frameBusy then
    if s.frameIdx.toNat = 24 then 0
    else if s.frameIdx.toNat = 31 then Config.freeFrameIdx s.draw else s.frameIdx + 1
  else s.frameIdx

/-- The count of draws after an ACCEPT. -/
def drawAfterAccept (s : State) : Nat :=
  if s.frameBusy then if s.frameLegal then s.draw else s.draw + 1 else s.draw

/-- All that an ACCEPT can do: four fields change, each as a function of the frame registers and the count of draws. -/
theorem acceptWith_eq (p : Params) (s : State) :
    acceptWith p s = { s with
      hist := s.hist ++ (if s.frameBusy then [s.presentedWord p] else [])
      frameBusy := busyAfterAccept s, frameIdx := idxAfterAccept s, draw := drawAfterAccept s } := by
  cases hb : s.frameBusy
  · rw [acceptWith_idle p hb]
    cases s
    simp only at hb
    simp [busyAfterAccept, idxAfterAccept, drawAfterAccept, hb]
  · rw [acceptWith_busy p hb]
    by_cases h24 : s.frameIdx.toNat = 24
    · by_cases hl : s.frameLegal <;>
        simp [State.advanceFrame, State.countDraw, State.transfer, busyAfterAccept, idxAfterAccept, drawAfterAccept,
          hb, h24, hl]
    · by_cases h31 : s.frameIdx.toNat = 31
      · simp [State.advanceFrame, State.countDraw, State.transfer, busyAfterAccept, idxAfterAccept, drawAfterAccept,
          hb, h31]
      · by_cases hl : s.frameLegal <;>
          simp [State.advanceFrame, State.countDraw, State.transfer, busyAfterAccept, idxAfterAccept,
            drawAfterAccept, hb, h24, h31, hl]

/-- All that an EDGE_A can do: nothing, or mark its button and count up. -/
theorem exec_edgeA (ts : Timestamp) (s : State) :
    exec (.edgeA ts) s = .next
      (if s.seenA = true ∧ msBetween s.lastA ts ≤ 400 then s else (s.markAccepted .a ts).countUp) :=
  congrArg _ (edge_eq .a _ ts s)

/-- All that an EDGE_B can do: nothing, or mark its button and count down. -/
theorem exec_edgeB (ts : Timestamp) (s : State) :
    exec (.edgeB ts) s = .next
      (if s.seenB = true ∧ msBetween s.lastB ts ≤ 400 then s else (s.markAccepted .b ts).countDown) :=
  congrArg _ (edge_eq .b _ ts s)

theorem execFrame_busy {s : State} (hb : s.frameBusy = true) : execFrame s = .next s := by
  simp [execFrame, hb]

theorem execFrame_fault {s : State} (hb : s.frameBusy = false) (hc : 9 < s.counter.toNat) :
    execFrame s = .fault (.digitRange (s.recordFault .digitRange)) := by
  simp [execFrame, raiseFault, hb, hc]

theorem execFrame_start {s : State} (hb : s.frameBusy = false) (hc : s.counter.toNat ≤ 9) :
    execFrame s = .next { s with frameDigit := s.counter, frameIdx := 0, frameBusy := true } := by
  simp [execFrame, hb, Nat.not_lt.mpr hc]

/-- FRAME by cases: ignored, a fault, or started. -/
theorem execFrame_cases (s : State) :
    (s.frameBusy = true ∧ execFrame s = .next s) ∨
    (s.frameBusy = false ∧ 9 < s.counter.toNat ∧ execFrame s = .fault (.digitRange (s.recordFault .digitRange))) ∨
    (s.frameBusy = false ∧ s.counter.toNat ≤ 9 ∧
      execFrame s = .next { s with frameDigit := s.counter, frameIdx := 0, frameBusy := true }) := by
  cases hb : s.frameBusy
  · rcases Nat.lt_or_ge 9 s.counter.toNat with h | h
    · exact .inr (.inl ⟨rfl, h, execFrame_fault hb h⟩)
    · exact .inr (.inr ⟨rfl, h, execFrame_start hb h⟩)
  · exact .inl ⟨rfl, execFrame_busy hb⟩

/-! No event looks at or touches the events still to come. -/

@[simp] theorem withEvents_seen (s : State) (es : List EventWord) (x : Button) :
    (s.withEvents es).seen x = s.seen x := by cases x <;> rfl

@[simp] theorem withEvents_last (s : State) (es : List EventWord) (x : Button) :
    (s.withEvents es).last x = s.last x := by cases x <;> rfl

theorem markAccepted_withEvents (s : State) (es : List EventWord) (x : Button) (t : Timestamp) :
    (s.withEvents es).markAccepted x t = (s.markAccepted x t).withEvents es := by cases x <;> rfl

theorem countUp_withEvents (s : State) (es : List EventWord) :
    (s.withEvents es).countUp = s.countUp.withEvents es := by
  by_cases h : s.counter.toNat < 9 <;> simp [State.countUp, h]
  rfl

theorem countDown_withEvents (s : State) (es : List EventWord) :
    (s.withEvents es).countDown = s.countDown.withEvents es := by
  by_cases h : s.counter.toNat > 0 <;> simp [State.countDown, h]
  rfl

theorem countDraw_withEvents (s : State) (es : List EventWord) (drew : Bool) :
    (s.withEvents es).countDraw drew = (s.countDraw drew).withEvents es := by cases drew <;> rfl

theorem edge_withEvents (x : Button) (effect : State → State) (t : Timestamp) (s : State) (es : List EventWord)
    (h : ∀ u : State, effect (u.withEvents es) = (effect u).withEvents es) :
    edge x effect t (s.withEvents es) = (edge x effect t s).withEvents es := by
  rw [edge_eq, edge_eq]
  simp only [withEvents_seen, withEvents_last, markAccepted_withEvents, h]
  split <;> rfl

theorem advanceFrame_withEvents (s : State) (es : List EventWord) :
    (s.withEvents es).advanceFrame = s.advanceFrame.withEvents es := by
  by_cases h24 : s.frameIdx.toNat = 24
  · rw [State.advanceFrame_last h24, State.advanceFrame_last (by exact h24)]; rfl
  by_cases h31 : s.frameIdx.toNat = 31 <;> simp [State.advanceFrame, h24, h31] <;> rfl

theorem acceptWith_withEvents (p : Params) (s : State) (es : List EventWord) :
    acceptWith p (s.withEvents es) = (acceptWith p s).withEvents es := by
  cases h : s.frameBusy
  · rw [acceptWith_idle p h, acceptWith_idle p (by exact h)]
  · rw [acceptWith_busy p h, acceptWith_busy p (by exact h)]
    have e : (s.withEvents es).transfer ((s.withEvents es).presentedWord p) =
        (s.transfer (s.presentedWord p)).withEvents es := rfl
    rw [e, advanceFrame_withEvents, countDraw_withEvents]
    rfl

/-- An outcome with the state it carries changed by `f`. -/
def mapState (f : State → State) : Result → Result
  | .next t => .next (f t)
  | .fault (.digitRange t) => .fault (.digitRange (f t))
  | .refused r => .refused r

/-- An event does the same whatever events are still to come. -/
theorem exec_withEvents (i : Instr) (s : State) (es : List EventWord) :
    exec i (s.withEvents es) = mapState (fun t => t.withEvents es) (exec i s) := by
  cases i with
  | edgeA ts => exact congrArg _ (edge_withEvents .a _ ts s es fun u => countUp_withEvents u es)
  | edgeB ts => exact congrArg _ (edge_withEvents .b _ ts s es fun u => countDown_withEvents u es)
  | tick ts =>
    have e : (s.withEvents es).heartbeatDue ts = s.heartbeatDue ts := rfl
    cases h : s.heartbeatDue ts <;> simp [exec, execTick, e, h, mapState]
    rfl
  | frame =>
    rcases execFrame_cases s with ⟨hb, h⟩ | ⟨hb, hc, h⟩ | ⟨hb, hc, h⟩ <;> simp only [exec, h]
    · exact execFrame_busy hb
    · exact execFrame_fault hb hc
    · exact execFrame_start hb hc
  | accept => exact congrArg _ (acceptWith_withEvents _ s es)
  | encode g r b => rfl
  | reset => rfl

/-- No event touches the events still to come. -/
theorem exec_events {i : Instr} {s t : State} (h : exec i s = .next t ∨ exec i s = .fault (.digitRange t)) :
    t.events = s.events := by
  have e := exec_withEvents i s s.events
  rw [State.withEvents_self] at e
  rcases h with h | h <;>
  · rw [h] at e
    simp only [mapState, Host.Outcome.next.injEq, Host.Outcome.fault.injEq, Fault.digitRange.injEq] at e
    rw [e]
    rfl

/-- No event's rule refuses (`60_exceptions.md` R80). -/
theorem exec_ne_refused (i : Instr) (s : State) (r : Refusal) : exec i s ≠ .refused r := by
  cases i
  case frame =>
    rcases execFrame_cases s with ⟨-, h⟩ | ⟨-, -, h⟩ | ⟨-, -, h⟩ <;> simp [exec, h]
  all_goals simp [exec, execEdgeA, execEdgeB, execTick, execAccept, execEncode, execReset]

end Sys2Proof.Machine
end

