-- ==== Sys2Proof/Laws/PerInstr.lean ====
section
/-! SUPPORT. One statement per event as it is written: the text of an event is well formed and its word shows its own row
of the opcode table and no other row (`30_encoding.md` R43, R49). -/

namespace Sys2Proof.Laws.ShowsItsOwnRow

/-- The word of the event shows the rows of its own mnemonic and no others, and its text form is well formed. -/
def Statement (i : Instr) : Prop :=
  (∀ row ∈ opcodeTable, row.spelledBy (encode i) = true ↔ row.mnemonic = i.mnemonic) ∧ i.toRaw.wellFormed = true

/-- The word of an event under the mask of a row, as a number. -/
theorem row_iff (i : Instr)
    (hT : (encode i).toNat / 2 ^ 32 * 2 ^ 32 = 0x1000000000000000 ↔ i.mnemonic = .edgeA)
    (hT2 : (encode i).toNat / 2 ^ 32 * 2 ^ 32 = 0x2000000000000000 ↔ i.mnemonic = .edgeB)
    (hT3 : (encode i).toNat / 2 ^ 32 * 2 ^ 32 = 0x3000000000000000 ↔ i.mnemonic = .tick)
    (hN4 : (encode i).toNat = 0x4000000000000000 ↔ i.mnemonic = .frame)
    (hN5 : (encode i).toNat = 0x5000000000000000 ↔ i.mnemonic = .accept)
    (hC : (encode i).toNat / 2 ^ 51 * 2 ^ 51 = 0x6000000000000000 ↔ i.mnemonic = .encode)
    (hN7 : (encode i).toNat = 0x7000000000000000 ↔ i.mnemonic = .reset) :
    ∀ row ∈ opcodeTable, row.spelledBy (encode i) = true ↔ row.mnemonic = i.mnemonic := by
  intro row hrow
  have eT := and_highMask_toNat (encode i) 0xFFFFFFFF00000000 32 (by decide) (by decide)
  have eN := and_highMask_toNat (encode i) 0xFFFFFFFFFFFFFFFF 0 (by decide) (by decide)
  have eC := and_highMask_toNat (encode i) 0xFFF8000000000000 51 (by decide) (by decide)
  simp only [Nat.pow_zero, Nat.div_one, Nat.mul_one] at eN
  simp only [opcodeTable, List.mem_cons, List.not_mem_nil, or_false] at hrow
  rcases hrow with rfl | rfl | rfl | rfl | rfl | rfl | rfl <;>
    simp only [OpcodeRow.spelledBy, decide_eq_true_eq, ← BitVec.toNat_inj, eT, eN, eC] <;>
    rw [eq_comm (b := i.mnemonic)]
  · exact hT
  · exact hT2
  · exact hT3
  · exact hN4
  · exact hN5
  · exact hC
  · exact hN7

theorem edgeA (ts : Timestamp) : Statement (.edgeA ts) := by
  have := ts.isLt
  refine ⟨row_iff _ ?_ ?_ ?_ ?_ ?_ ?_ ?_, by simpa [Instr.toRaw, Instr.mnemonic, Instr.operands, RawEvent.wellFormed, fitsTimestamp] using this⟩ <;>
    simp [encode, encodeT_toNat, Instr.mnemonic] <;> omega

theorem edgeB (ts : Timestamp) : Statement (.edgeB ts) := by
  have := ts.isLt
  refine ⟨row_iff _ ?_ ?_ ?_ ?_ ?_ ?_ ?_, by simpa [Instr.toRaw, Instr.mnemonic, Instr.operands, RawEvent.wellFormed, fitsTimestamp] using this⟩ <;>
    simp [encode, encodeT_toNat, Instr.mnemonic] <;> omega

theorem tick (ts : Timestamp) : Statement (.tick ts) := by
  have := ts.isLt
  refine ⟨row_iff _ ?_ ?_ ?_ ?_ ?_ ?_ ?_, by simpa [Instr.toRaw, Instr.mnemonic, Instr.operands, RawEvent.wellFormed, fitsTimestamp] using this⟩ <;>
    simp [encode, encodeT_toNat, Instr.mnemonic] <;> omega

theorem frame : Statement .frame := by unfold Statement; decide

theorem accept : Statement .accept := by unfold Statement; decide

theorem encode (g r b : Channel) : Statement (.encode g r b) := by
  have := g.isLt; have := r.isLt; have := b.isLt
  refine ⟨row_iff _ ?_ ?_ ?_ ?_ ?_ ?_ ?_, ?_⟩
  case refine_8 =>
    simp [Instr.toRaw, Instr.mnemonic, Instr.operands, RawEvent.wellFormed, fitsChannel]
    omega
  all_goals simp [Sys2Proof.encode, encodeC_toNat, Instr.mnemonic]
  all_goals omega

theorem reset : Statement .reset := by unfold Statement; decide

end Sys2Proof.Laws.ShowsItsOwnRow
end

