-- ==== Sys2Proof/Laws/Sequence.lean ====
section
/-! SUPPORT. What a step can do, said once, and what running many events comes to. -/

namespace Sys2Proof.Machine

/-- All that a step can answer as a next state: waiting, or the next state of the event it took. -/
theorem step_next_cases {s t : State} (h : step s = .next t) :
    (s.events = [] ∧ t = s) ∨
    ∃ w rest i, s.events = w :: rest ∧ decode w = .event i ∧ exec i (s.withEvents rest) = .next t := by
  unfold step takeEvent at h
  split at h
  · next he => exact .inl ⟨he, by simpa using h.symm⟩
  · next w rest he =>
    unfold runWord at h
    split at h
    · next i hd => exact .inr ⟨w, rest, i, he, hd, h⟩
    · simp at h

/-- All that a step can answer as a fault: that of the event it took. -/
theorem step_fault_cases {s : State} {f : Fault} (h : step s = .fault f) :
    ∃ w rest i, s.events = w :: rest ∧ decode w = .event i ∧ exec i (s.withEvents rest) = .fault f := by
  unfold step takeEvent at h
  split at h
  · simp at h
  · next w rest he =>
    unfold runWord at h
    split at h
    · next i hd => exact ⟨w, rest, i, he, hd, h⟩
    · simp at h

/-- Running a list of events is running its head and then the rest. -/
theorem execAll_cons_next {i : Instr} {is : List Instr} {s t : State} (h : exec i s = .next t) :
    execAll (i :: is) s = execAll is t := by simp [execAll, h]

theorem execAll_append {is js : List Instr} {s t : State} (h : execAll is s = .next t) :
    execAll (is ++ js) s = execAll js t := by
  induction is generalizing s with
  | nil => simp only [execAll, Host.Outcome.next.injEq] at h; rw [h, List.nil_append]
  | cons i is ih =>
    unfold execAll at h
    split at h
    · next u hu => rw [List.cons_append, execAll_cons_next hu, ih h]
    · simp at h
    · simp at h

theorem stateAfter_mapState (f : State → State) (s : State) (r : Result) :
    stateAfter (f s) (mapState f r) = f (stateAfter s r) := by
  rcases r with t | ⟨t⟩ | r <;> rfl

/-- A word leaves the same whatever events are still to come. -/
theorem feedWord_withEvents (s : State) (es : List EventWord) (w : EventWord) :
    feedWord (s.withEvents es) w = (feedWord s w).withEvents es := by
  unfold feedWord runWord
  split
  · rw [exec_withEvents]; exact stateAfter_mapState _ s _
  · rfl

theorem feedWord_events (s : State) (w : EventWord) : (feedWord s w).events = s.events := by
  have := feedWord_withEvents s s.events w
  rw [State.withEvents_self] at this
  rw [this]; rfl

/-- All that a word can leave: the state its event leaves, by completing or by faulting, or the state it met. -/
theorem feedWord_cases (s : State) (w : EventWord) :
    (∃ i t, decode w = .event i ∧ exec i s = .next t ∧ feedWord s w = t) ∨
    (∃ i t, decode w = .event i ∧ exec i s = .fault (.digitRange t) ∧ feedWord s w = t) ∨
    (∃ reason, decode w = .refuse reason ∧ feedWord s w = s) := by
  unfold feedWord runWord
  cases hd : decode w with
  | refuse reason => exact .inr (.inr ⟨reason, rfl, rfl⟩)
  | event i =>
    cases h : exec i s with
    | next t => exact .inl ⟨i, t, rfl, h, by simp [h, stateAfter]⟩
    | refused r => exact absurd h (exec_ne_refused i s r)
    | fault f =>
      cases f with
      | digitRange t => exact .inr (.inl ⟨i, t, rfl, h, by simp [h, stateAfter]⟩)

/-- Legality says nothing of the events still to come. -/
theorem legal_withEvents {s : State} (es : List EventWord) (h : s.Legal) : (s.withEvents es).Legal :=
  ⟨h.counter, h.frameDigit, h.frameIdx, h.idleAtZero, h.neverSeenA, h.neverSeenB, h.encTopByte, h.histCellWords⟩

/-- One step over a sequence that begins with `w` leaves what feeding `w` leaves. -/
theorem afterEvent_cons {s : State} {w : EventWord} {rest : List EventWord} (h : s.events = w :: rest) :
    afterEvent s = feedWord (s.withEvents rest) w := by
  simp only [afterEvent, takeEvent, h, List.tail_cons, feedWord]

theorem feed_cons (s : State) (w : EventWord) (ws : List EventWord) : feed s (w :: ws) = feed (feedWord s w) ws := rfl

theorem feed_append (s : State) (vs ws : List EventWord) : feed s (vs ++ ws) = feed (feed s vs) ws :=
  List.foldl_append

/-- What holds of a state and is kept by every word holds after any sequence of words. -/
theorem feed_induction {P : State → Prop} (keep : ∀ s w, P s → P (feedWord s w)) {s : State} (h : P s) :
    ∀ ws, P (feed s ws)
  | [] => h
  | w :: ws => feed_induction keep (keep s w h) ws

end Sys2Proof.Machine
end

