-- ==== Sys2Proof/Tests/Slice0.lean ====
section
/-! SUPPORT. The model's own tests: the well-formedness checks, words written out from the spec's encodings, one step on
small states with the results of `95_test_vectors.md`, and for each statement with hypotheses a witness that meets them. -/

namespace Sys2Proof.Tests

open Sys2Proof Sys2Proof.Machine

/-- The next state of an outcome, if it has one. -/
def nextOf : Result → Option State
  | .next t => some t
  | _ => none

/-- The test parameters of `95_test_vectors.md`: BRIGHTNESS_T = 0x40, GLYPH_T lights the cells with `r*5 + c ≤ d`.
The ROM holds digit 0's row-major 25 bits lowest. -/
def paramsT : Params where
  brightness := 0x40
  glyph := BitVec.ofNat 250 (((List.range 10).map fun d => (2 ^ (d + 1) - 1) * 2 ^ (25 * d)).sum)

/-! ### Well-formedness: each check refuses an ill-formed term -/

theorem test_wf_refuses_wide_ts :
    RawEvent.wellFormed { mnemonic := .edgeA, operands := [4294967296] } = false ∧
    RawEvent.wellFormed { mnemonic := .edgeB, operands := [4294967296] } = false ∧
    RawEvent.wellFormed { mnemonic := .tick, operands := [4294967296] } = false := by decide
theorem test_wf_refuses_wide_channel :
    RawEvent.wellFormed { mnemonic := .encode, operands := [131072, 0, 0] } = false ∧
    RawEvent.wellFormed { mnemonic := .encode, operands := [0, 131072, 0] } = false ∧
    RawEvent.wellFormed { mnemonic := .encode, operands := [0, 0, 131072] } = false := by decide
theorem test_wf_refuses_wrong_operand_count :
    RawEvent.wellFormed { mnemonic := .edgeA, operands := [] } = false ∧
    RawEvent.wellFormed { mnemonic := .frame, operands := [0] } = false ∧
    RawEvent.wellFormed { mnemonic := .accept, operands := [0] } = false ∧
    RawEvent.wellFormed { mnemonic := .reset, operands := [0] } = false ∧
    RawEvent.wellFormed { mnemonic := .encode, operands := [1, 2] } = false := by decide
theorem test_wf_takes_largest_operands :
    RawEvent.wellFormed { mnemonic := .tick, operands := [4294967295] } = true ∧
    RawEvent.wellFormed { mnemonic := .encode, operands := [131071, 131071, 131071] } = true := by decide

/-! ### Decoding: words written out bit by bit from `30_encoding.md` R42 and R43, and L2-X -/

theorem test_decode_edgeA : decode (0b0001#4 ++ 0#28 ++ 0b00000000000000000000000110011010#32) =
    .event (.edgeA 410) := by decide
theorem test_decode_edgeB : decode (0b0010#4 ++ 0#28 ++ 0b00000000000000000000000000000101#32) =
    .event (.edgeB 5) := by decide
theorem test_decode_tick : decode (0b0011#4 ++ 0#28 ++ 0b10000000000000000000000001100101#32) =
    .event (.tick 2147483749) := by decide
theorem test_decode_frame : decode (0b0100#4 ++ 0#60) = .event .frame := by decide
theorem test_decode_accept : decode (0b0101#4 ++ 0#60) = .event .accept := by decide
theorem test_decode_encode :
    decode (0b0110#4 ++ 0#9 ++ 0b01000000000000000#17 ++ 0b01111111111111111#17 ++ 0b00000000100000010#17) =
      .event (.encode 32768 65535 258) := by decide
theorem test_decode_reset : decode (0b0111#4 ++ 0#60) = .event .reset := by decide
theorem test_decode_illegal_op :
    decode 0x0000000000000000 = .refuse .illegalOp ∧ decode 0x8000000000000000 = .refuse .illegalOp ∧
    decode 0xF000000000000000 = .refuse .illegalOp ∧ decode 0x8000000100000000 = .refuse .illegalOp := by decide
theorem test_decode_reserved :
    decode 0x3000000100000000 = .refuse .reservedNonzero ∧ decode 0x1800000000000000 = .refuse .reservedNonzero ∧
    decode 0x4000000000000001 = .refuse .reservedNonzero ∧ decode 0x7000000000000010 = .refuse .reservedNonzero ∧
    decode 0x6008000000000000 = .refuse .reservedNonzero := by decide
theorem test_decode_largest :
    decode 0x10000000FFFFFFFF = .event (.edgeA 4294967295) ∧
    decode 0x6007FFFFFFFFFFFF = .event (.encode 131071 131071 131071) := by decide
theorem test_encode_words :
    encode (.edgeA 410) = 0x100000000000019A ∧ encode (.edgeB 5010) = 0x2000000000001392 ∧
    encode (.tick 820) = 0x3000000000000334 ∧ encode .frame = 0x4000000000000000 ∧
    encode .accept = 0x5000000000000000 ∧ encode (.encode 65536 0 0) = 0x6004000000000000 ∧
    encode .reset = 0x7000000000000000 := by decide
theorem test_decodeTableWord :
    decodeTableWord 64 0x60020001FFFE0102 = some (.encode 32768 65535 258) ∧
    decodeTableWord 64 0x8000000000000000 = none ∧ decodeTableWord 4 0x1 = none := by decide
theorem test_bytes_msb_first : bytesOfWord 0x100000000000019A = [0x10, 0, 0, 0, 0, 0, 0x01, 0x9A] := by decide

/-! ### Text -/

theorem test_assemble_iter :
    readLine "ITER 0x65".toList = some (.tick 101 :: .frame :: List.replicate 25 .accept) := by decide
theorem test_assemble_comment_and_refusals :
    readLine "  # nothing".toList = some [] ∧ readLine "TICK 101 # late".toList = some [.tick 101] ∧
    readLine "TICK".toList = none ∧ readLine "ENCODE 1 2 3".toList = none ∧ readLine "BEEP".toList = none := by decide

/-! ### Fetching -/

theorem test_fetch_runs_the_word :
    nextOf (step (State.reset.withFetchWord 64 0x100000000000019A)) =
      some { State.reset with counter := 1, seenA := true, lastA := 410 } := by decide
theorem test_refused_word_changes_nothing :
    afterEvent { State.reset with events := [0x3000000100000000, 0x3000000000000065] } =
      { State.reset with events := [0x3000000000000065] } := by decide

/-! ### Pixel encoder: L2-E, L1-10 -/

theorem test_byteQ : (List.map byteQ [0, 256, 257, 258, 32768, 33024, 65280, 65535, 65536, 65537, 131071]) =
    [0, 0, 0, 1, 127, 128, 254, 254, 255, 255, 255] := by decide
theorem test_packing : packGRB 0x12 0x34 0x56 = 0x00123456 := by decide
theorem test_exec_encode : nextOf (exec (.encode 32768 65535 258) State.reset) =
    some { State.reset with encWord := 0x007FFE01 } := by decide
theorem test_exec_encode_green_first : nextOf (exec (.encode 65536 0 0) { State.reset with frameBusy := true, frameIdx := 7 }) =
    some { State.reset with frameBusy := true, frameIdx := 7, encWord := 0x00FF0000 } := by decide

/-! ### Compositor and renderer: L2-S, L2-M, L2-F -/

theorem test_phys_grid :
    ([0, 1, 2, 3, 4] : List (Fin 5)).map (fun r => ([0, 1, 2, 3, 4] : List (Fin 5)).map fun c => (phys r c).val) =
      [[24, 23, 22, 21, 20], [15, 16, 17, 18, 19], [14, 13, 12, 11, 10], [5, 6, 7, 8, 9], [4, 3, 2, 1, 0]] := by decide
theorem test_pixelWord_three : (List.finRange 25).map (pixelWord paramsT 3) =
    List.replicate 21 0 ++ List.replicate 4 0x00004000 := by decide
theorem test_pixelWord_nine : (List.finRange 25).map (pixelWord paramsT 9) =
    List.replicate 15 0 ++ List.replicate 10 0x00004000 := by decide
theorem test_exec_frame_busy : nextOf (exec .frame
      { State.reset with frameBusy := true, frameIdx := 7, frameDigit := 2, counter := 5 }) =
    some { State.reset with frameBusy := true, frameIdx := 7, frameDigit := 2, counter := 5 } := by decide
theorem test_exec_frame_fault : exec .frame { State.reset with counter := 12 } =
    .fault (.digitRange { State.reset with counter := 12, fault := [.digitRange] }) := by rfl
theorem test_accept_idle : acceptWith paramsT State.reset = State.reset := by decide
theorem test_accept_last : acceptWith paramsT
      { State.reset with frameBusy := true, frameIdx := 24, frameDigit := 3 } =
    { State.reset with frameDigit := 3, hist := [0x00004000] } := by decide

/-! ### Debouncer: L2-D -/

theorem test_edgeA_boundary :
    nextOf (exec (.edgeA 1400) { State.reset with seenA := true, lastA := 1000, counter := 2 }) =
      some { State.reset with seenA := true, lastA := 1000, counter := 2 } ∧
    nextOf (exec (.edgeA 1401) { State.reset with seenA := true, lastA := 1000, counter := 2 }) =
      some { State.reset with seenA := true, lastA := 1401, counter := 3 } := by decide
theorem test_edgeA_wraps :
    nextOf (exec (.edgeA 0x100) { State.reset with seenA := true, lastA := 0xFFFFFF00, counter := 9 }) =
      some { State.reset with seenA := true, lastA := 0x100, counter := 9 } ∧
    nextOf (exec (.edgeA 0x80) { State.reset with seenA := true, lastA := 0xFFFFFF00, counter := 1 }) =
      some { State.reset with seenA := true, lastA := 0xFFFFFF00, counter := 1 } := by decide
theorem test_edgeB_saturates_yet_accepts : nextOf (exec (.edgeB 7) State.reset) =
    some { State.reset with seenB := true, lastB := 7 } := by decide
theorem test_edgeB_counts_down :
    nextOf (exec (.edgeB 401) { State.reset with counter := 12, seenB := true, seenA := true, lastA := 300 }) =
      some { State.reset with counter := 11, seenB := true, lastB := 401, seenA := true, lastA := 300 } := by decide

/-! ### Heartbeat: L2-H -/

theorem test_tick_strict :
    nextOf (exec (.tick 100) State.reset) = some State.reset ∧
    nextOf (exec (.tick 101) State.reset) = some { State.reset with hbFlag := true, hbLast := 101 } := by decide
theorem test_tick_wraps :
    nextOf (exec (.tick 0x30) { State.reset with hbFlag := true, hbLast := 0xFFFFFFC0 }) =
      some { State.reset with hbFlag := false, hbLast := 0x30 } ∧
    nextOf (exec (.tick 0x20) { State.reset with hbLast := 0xFFFFFFC0 }) =
      some { State.reset with hbLast := 0xFFFFFFC0 } := by decide

/-! ### Reset: L2-R -/

theorem test_reset_keeps_record_and_history :
    nextOf (exec .reset { State.reset with
      counter := 12, seenA := true, lastA := 900, hbFlag := true, hbLast := 800, frameBusy := true, frameIdx := 12,
      frameDigit := 5, encWord := 0x00FFFFFF, fault := [.digitRange], hist := [0x00004000] }) =
    some { State.reset with fault := [.digitRange], hist := [0x00004000] } := by decide

/-! ### Witnesses: each statement's hypotheses can be met, clause by clause, at the bounds -/

/-- A state in the middle of a frame of digit 5. -/
def midFrame : State := { State.reset with counter := 5, frameBusy := true, frameIdx := 7, frameDigit := 5 }

theorem witness_EncodingADecodedWordGivesItBack :
    decode 0x60020001FFFE0102 = .event (.encode 32768 65535 258) := by decide
theorem witness_OpcodeTableRowsAgreeWithTheDecoder :
    ∃ row ∈ opcodeTable, row.spelledBy 0x6007FFFFFFFFFFFF = true := by decide
theorem witness_OperandsAreTheNamedBitsUnscaled :
    decode 0x10000000FFFFFFFF = .event (.edgeA 4294967295) ∧ decode 0x2000000000000000 = .event (.edgeB 0) ∧
    decode 0x3000000000000065 = .event (.tick 101) ∧
    decode 0x6007FFFFFFFFFFFF = .event (.encode 131071 131071 131071) := by decide
theorem witness_RefusedWordChangesNoState :
    (∃ s : State, s.events = [0] ∧ decode 0 = .refuse .illegalOp) ∧
    (∃ s : State, s.events = [0x6008000000000000] ∧ decode 0x6008000000000000 = .refuse .reservedNonzero) :=
  ⟨⟨{ State.reset with events := [0] }, by decide⟩, ⟨{ State.reset with events := [0x6008000000000000] }, by decide⟩⟩
theorem witness_StepRunsTheDecodedEvent :
    ∃ s : State, s.events = [0x4000000000000000, 0x5000000000000000] ∧ decode 0x4000000000000000 = .event .frame :=
  ⟨{ State.reset with events := [0x4000000000000000, 0x5000000000000000] }, by decide⟩
theorem witness_StepWithoutAnEventWaits : State.reset.events = [] := rfl
theorem witness_EveryEventCompletesButAFrameOnABadDigit :
    Instr.frame ≠ .accept ∧ midFrame.frameBusy = true ∧ State.reset.counter.toNat ≤ 9 ∧
    ∃ f, exec .frame { State.reset with counter := 10 } = .fault f :=
  ⟨by decide, rfl, by decide, _, rfl⟩
theorem witness_ChannelByteIsClampedAndTruncated :
    ((0 : ℚ) ≤ 1 ∧ (1 : ℚ) ≤ 1) ∧ (1 : ℚ) < 1 + 1 / 65536 ∧ (-1 : ℚ) < 0 := by norm_num
theorem witness_FrameIsIgnoredFaultsOrStarts :
    midFrame.frameBusy = true ∧
    (∃ s : State, s.frameBusy = false ∧ s.counter.toNat = 10) ∧ (∃ s : State, s.frameBusy = false ∧ s.counter.toNat = 9) :=
  ⟨rfl, ⟨{ State.reset with counter := 10 }, by decide⟩, ⟨{ State.reset with counter := 9 }, by decide⟩⟩
theorem witness_AcceptTransfersTheWordOfItsPosition :
    State.reset.frameBusy = false ∧
    ∃ s : State, s.frameDigit.toNat = 9 ∧ s.frameIdx.toNat = 24 ∧ s.frameBusy = true :=
  ⟨rfl, { State.reset with frameBusy := true, frameIdx := 24, frameDigit := 9 }, by decide⟩
theorem witness_AcceptOutsideTheLegalFrameRegisters :
    (∃ s : State, s.frameBusy = true ∧ 10 ≤ s.frameDigit.toNat ∧ s.frameIdx.toNat = 24) ∧
    (∃ s : State, s.frameBusy = true ∧ s.frameIdx.toNat = 25) ∧ (∃ s : State, s.frameBusy = true ∧ s.frameIdx.toNat = 31) :=
  ⟨⟨{ State.reset with frameBusy := true, frameIdx := 24, frameDigit := 10 }, by decide⟩,
    ⟨{ State.reset with frameBusy := true, frameIdx := 25 }, by decide⟩,
    ⟨{ State.reset with frameBusy := true, frameIdx := 31 }, by decide⟩⟩
theorem witness_WordsLeaveOnlyByAcceptAsPresented : ∃ t, exec .accept midFrame = .next t := ⟨_, rfl⟩
theorem witness_FrameTransfersItsWordsOnceInChainOrder :
    State.reset.counter.toNat < 10 ∧ State.reset.frameBusy = false ∧
    (∀ i ∈ .edgeA 0 :: .frame :: acceptN 25, i ≠ .reset) ∧
    acceptCount (.edgeA 0 :: .frame :: acceptN 25) = 25 ∧
    (.edgeA 0 :: .frame :: acceptN 25).getLast? = some .accept ∧ acceptCount [.accept, .tick 0] < 25 := by decide
theorem witness_StalledFrameHoldsItsWord :
    midFrame.frameBusy = true ∧ ∀ i ∈ [Instr.frame, .edgeB 3, .tick 500, .encode 1 2 3], leavesFrameStalled i = true := by
  decide
theorem witness_OtherUnitsEventsCommuteWithAccept : Instr.edgeA 3 ≠ .frame ∧ Instr.edgeA 3 ≠ .reset := by decide
theorem witness_IterationShowsTheCounterWhole :
    ({ State.reset with counter := 9 } : State).counter.toNat < 10 ∧ State.reset.frameBusy = false := by decide
theorem witness_OutputsShowTheState :
    State.reset.frameBusy = false ∧ midFrame.frameDigit.toNat < 10 ∧ midFrame.frameIdx.toNat < 25 ∧
    midFrame.frameBusy = true := by decide
theorem witness_EdgeOnLineACountsUpOrIsDiscarded :
    (∃ s : State, s.seenA = true ∧ msBetween s.lastA 1400 = 400) ∧
    (∃ s : State, s.seenA = true ∧ msBetween s.lastA 1401 = 401) ∧ State.reset.seenA = false :=
  ⟨⟨{ State.reset with seenA := true, lastA := 1000 }, by decide⟩,
    ⟨{ State.reset with seenA := true, lastA := 1000 }, by decide⟩, rfl⟩
theorem witness_EdgeOnLineBCountsDownOrIsDiscarded :
    (∃ s : State, s.seenB = true ∧ msBetween s.lastB 144 = 400) ∧
    (∃ s : State, s.seenB = true ∧ msBetween s.lastB 145 = 401) ∧ State.reset.seenB = false :=
  ⟨⟨{ State.reset with seenB := true, lastB := 0xFFFFFF00 }, by decide⟩,
    ⟨{ State.reset with seenB := true, lastB := 0xFFFFFF00 }, by decide⟩, rfl⟩
theorem witness_EdgeIsDiscardedExactlyWhenRecentlyTriggered :
    State.reset.phase .a 0 = .idleNeverTriggered ∧
    ({ State.reset with seenB := true } : State).phase .b 400 = .recentlyTriggered ∧
    ({ State.reset with seenB := true } : State).phase .b 401 = .idleWindowExpired := by decide
theorem witness_OnlyTheFirstEdgeOfATrainCounts :
    (∀ t ∈ [100, 250, 400], 0 ≤ t ∧ t ≤ 0 + 400) ∧ State.reset.seenA = false ∧ State.reset.counter.toNat < 9 ∧
    ∃ s : State, s.seenB = false ∧ 0 < s.counter.toNat :=
  ⟨by decide, rfl, by decide, { State.reset with counter := 1 }, by decide⟩
theorem witness_ElapsedTimeIsRealTimeAcrossAWrap :
    (4294967040 ≤ 4294967552 ∧ 4294967552 - 4294967040 < 2 ^ 32) ∧ 400 < 2 ^ 32 ∧ (900 < 1000 ∧ 1000 < 2 ^ 32) := by norm_num
theorem witness_OrderOfSimultaneousPressesShowsOnlyAtABound :
    (∃ s : State, s.seenA = false ∧ s.seenB = false ∧ s.counter.toNat = 9) ∧
    (∃ s : State, s.seenA = false ∧ 400 < msBetween s.lastB 401 ∧ 0 < s.counter.toNat ∧ s.counter.toNat < 9) ∧
    admissibleOrder [.edgeA 7, .edgeB 7] [.edgeB 7, .edgeA 7] :=
  ⟨⟨{ State.reset with counter := 9 }, by decide⟩, ⟨{ State.reset with counter := 8, seenB := true }, by decide⟩,
    List.Perm.swap _ _ _⟩
theorem witness_TickTogglesAfterMoreThanHundredMs :
    100 < msBetween State.reset.hbLast 101 ∧ msBetween State.reset.hbLast 100 ≤ 100 := by decide
theorem witness_HeartbeatPeriodRunsFromTheLastToggle :
    (∀ ts ∈ ([50, 100] : List Timestamp), msBetween State.reset.hbLast ts ≤ 100) ∧
    100 < msBetween State.reset.hbLast 150 :=
  ⟨by simp [msBetween, State.reset], by decide⟩
theorem witness_EventsTouchOnlyTheirMarkedCells :
    (∃ t, exec (.tick 101) State.reset = .next t) ∧ (∃ t, exec .frame { State.reset with counter := 10 } = .fault (.digitRange t)) ∧
    midFrame.draw = { midFrame with counter := 3, hbFlag := true }.draw ∧
    (∀ c ∈ cellsRead (Instr.mnemonic .accept), c.same midFrame { midFrame with counter := 3, hbFlag := true }) :=
  ⟨⟨_, rfl⟩, ⟨_, rfl⟩, rfl, by simp [cellsRead, Instr.mnemonic, StateCell.same]⟩
theorem witness_ResetRearmsButtonsAndAbandonsTheFrame :
    ∀ i ∈ [Instr.accept, .edgeA 3, .reset, .accept], i ≠ .frame := by decide
theorem witness_StepKeepsTheStateLegal :
    State.Legal { State.reset with events := [0x1000000000000000] } ∧
    ∃ t, step { State.reset with events := [0x1000000000000000] } = .next t :=
  ⟨⟨by decide, by decide, by decide, by decide, by decide, by decide, by decide, by simp [State.reset]⟩, _, rfl⟩
theorem witness_LegalStateNeverFaults : ∃ s : State, s.Legal ∧ ∃ t, step s = .next t :=
  ⟨_, witness_StepKeepsTheStateLegal.1, witness_StepKeepsTheStateLegal.2⟩
theorem witness_CounterStaysADigitFromPowerOn : ∃ s : State, s.frameBusy = false ∧ 9 < s.counter.toNat :=
  ⟨{ State.reset with counter := 10 }, by decide⟩
theorem witness_FaultAppendsItsKindAndNothingRemovesIt :
    (∃ f, exec .frame { State.reset with counter := 15 } = .fault f) ∧
    ∃ t, exec .reset { State.reset with fault := [.digitRange] } = .next t := ⟨⟨_, rfl⟩, _, rfl⟩
theorem witness_FaultRecordOnlyGrowsAlongASequence :
    ({ State.reset with fault := [.digitRange] } : State).mayBeFinal = false := by decide

end Sys2Proof.Tests
end

section
/-! The step and the event sequence (`00_scope.md` R2, R3): the word of an event decodes to that event, a step runs the
word it takes, a sequence is run word by word, and only a FRAME on a bad digit fails to complete. -/

namespace Sys2Proof

/-! The word of an event, decoded -/

theorem decodeT_encodeT (event : Timestamp → Instr) (op : BitVec 4) (ts : Timestamp) :
    decodeT event (encodeT op ts) = .event (event ts) :=
  decodeT_eq_event.mpr ⟨reservedT_encodeT op ts, by rw [tsField_encodeT]⟩

theorem decodeN_encodeN (event : Instr) (op : BitVec 4) : decodeN event (encodeN op) = .event event :=
  decodeN_eq_event.mpr ⟨reservedN_encodeN op, rfl⟩

theorem decodeC_encodeC (op : BitVec 4) (g r b : Channel) : decodeC (encodeC op g r b) = .event (.encode g r b) :=
  decodeC_eq_event.mpr ⟨reservedC_encodeC op g r b, by rw [gField_encodeC, rField_encodeC, bField_encodeC]⟩

/-- The opcode of an event's word picks its format, and that format reads its operands back
(`30_encoding.md` R42 to R44). -/
theorem decode_encode (i : Instr) : decode (encode i) = .event i := by
  cases i with
  | edgeA | edgeB | tick => simp [encode, decode, opField_encodeT, decodeT_encodeT]
  | frame | accept | reset => simp [encode, decode, opField_encodeN, decodeN_encodeN]
  | encode => simp [encode, decode, opField_encodeC, decodeC_encodeC]

/-- A word has 64 bits, so `tableWord` cuts none of them off. -/
theorem tableWord_of_toNat (w : EventWord) : tableWord 64 w.toNat = w := by
  rw [tableWord, Nat.mod_eq_of_lt w.isLt, BitVec.ofNat_toNat, BitVec.setWidth_eq]

end Sys2Proof

namespace Sys2Proof.Machine

/-! A step -/

theorem runWord_of_decode {w : EventWord} {i : Instr} (h : decode w = .event i) (s : State) :
    runWord w s = exec i s := by
  simp [runWord, h]

theorem step_cons {s : State} {w : EventWord} {rest : List EventWord} (h : s.events = w :: rest) :
    step s = runWord w (s.withEvents rest) := by
  simp [step, takeEvent, h]

/-- Placing a word and taking it again leaves the state it was placed in (notes/assumptions/2.md). -/
theorem step_withFetchWord (s : State) (w : EventWord) : step (s.withFetchWord 64 w.toNat) = runWord w s := by
  have head : (s.withFetchWord 64 w.toNat).events = w :: s.events := by
    rw [State.withFetchWord, State.pushTableWord_events, tableWord_of_toNat]
  exact step_cons head

/-! Which events complete -/

theorem exec_next_of_ne_frame {i : Instr} (h : i ≠ .frame) (s : State) : ∃ t, exec i s = .next t := by
  cases i with
  | frame => exact absurd rfl h
  | _ => exact ⟨_, rfl⟩

theorem exec_frame_next {s : State} (h : s.frameBusy = true ∨ s.counter.toNat ≤ 9) : ∃ t, exec .frame s = .next t := by
  rcases execFrame_cases s with ⟨-, e⟩ | ⟨idle, bad, -⟩ | ⟨-, -, e⟩
  · exact ⟨_, e⟩
  · rcases h with busy | legal
    · simp [idle] at busy
    · omega
  · exact ⟨_, e⟩

/-- What completes does not fault, so a fault is a FRAME that is neither ignored nor started (`60_exceptions.md` R80). -/
theorem exec_fault_imp {i : Instr} {s : State} {f : Fault} (h : exec i s = .fault f) :
    i = .frame ∧ s.frameBusy = false ∧ 9 < s.counter.toNat := by
  have notNext : ¬ ∃ t, exec i s = .next t := by simp [h]
  obtain rfl : i = .frame := by_contra fun ne => notNext (exec_next_of_ne_frame ne s)
  have bad := mt exec_frame_next notNext
  simpa using bad

/-! Many steps -/

/-- As many steps as there are words ahead do what feeding those words does; each step leaves the rest of the sequence
in place for the next one. -/
theorem afterEvents_withEvents_append (s : State) (ws rest : List EventWord) :
    afterEvents ws.length (s.withEvents (ws ++ rest)) = feed (s.withEvents rest) ws := by
  induction ws generalizing s with
  | nil => rfl
  | cons w ws ih =>
    calc afterEvents (w :: ws).length (s.withEvents (w :: ws ++ rest))
        = afterEvents ws.length (afterEvent (s.withEvents (w :: (ws ++ rest)))) := rfl
      _ = afterEvents ws.length ((feedWord s w).withEvents (ws ++ rest)) := by
          rw [afterEvent_cons (State.withEvents_events _ _), State.withEvents_withEvents, feedWord_withEvents]
      _ = feed ((feedWord s w).withEvents rest) ws := ih (feedWord s w)
      _ = feed (s.withEvents rest) (w :: ws) := by rw [feed_cons, feedWord_withEvents]

/-! The obligations -/

/-- Settles O16, by induction on the words fed, over any state and any words after them. -/
theorem sequenceIsTakenInOrderOneByOne : Obligations.SequenceIsTakenInOrderOneByOne :=
  afterEvents_withEvents_append

/-- Settles O12: a step runs the word it takes, and a word that decodes to an event runs that event. -/
theorem stepRunsTheDecodedEvent : Obligations.StepRunsTheDecodedEvent := by
  intro s w rest i taken decoded
  exact (step_cons taken).trans (runWord_of_decode decoded _)

/-- Settles O14: the placed word is the one the step takes, and it decodes to the event it was made from. -/
theorem placedWordIsRunByTheNextStep : Obligations.PlacedWordIsRunByTheNextStep := by
  intro s i
  exact (step_withFetchWord s (encode i)).trans (runWord_of_decode (decode_encode i) s)

/-- Settles O18, from what each event answers: only FRAME has a case that is not a next state. -/
theorem everyEventCompletesButAFrameOnABadDigit : Obligations.EveryEventCompletesButAFrameOnABadDigit := by
  intro i s
  refine ⟨fun h => ?_, exec_ne_refused i s, fun _ => exec_fault_imp⟩
  by_cases isFrame : i = .frame
  · subst isFrame
    exact exec_frame_next (h.resolve_left (not_not_intro rfl))
  · exact exec_next_of_ne_frame isFrame s

end Sys2Proof.Machine
end

section
/-! The state (`10_state.md`): which states are legal and that every event keeps them so (R12), which cells an event reads
and writes (R23), the fault record (R20), the outputs (R21), and the reset values (R24). -/

namespace Sys2Proof.Machine

/-! What the updates set and leave alone -/

theorem State.countUp_eq (s : State) : s.countUp = { s with counter := s.countUp.counter } := by
  unfold State.countUp; split <;> rfl

theorem State.countDown_eq (s : State) : s.countDown = { s with counter := s.countDown.counter } := by
  unfold State.countDown; split <;> rfl

@[simp] theorem markAccepted_a_seenA (s : State) (t : Timestamp) : (s.markAccepted .a t).seenA = true := rfl
@[simp] theorem markAccepted_a_lastA (s : State) (t : Timestamp) : (s.markAccepted .a t).lastA = t := rfl
@[simp] theorem markAccepted_a_seenB (s : State) (t : Timestamp) : (s.markAccepted .a t).seenB = s.seenB := rfl
@[simp] theorem markAccepted_a_lastB (s : State) (t : Timestamp) : (s.markAccepted .a t).lastB = s.lastB := rfl
@[simp] theorem markAccepted_b_seenA (s : State) (t : Timestamp) : (s.markAccepted .b t).seenA = s.seenA := rfl
@[simp] theorem markAccepted_b_lastA (s : State) (t : Timestamp) : (s.markAccepted .b t).lastA = s.lastA := rfl
@[simp] theorem markAccepted_b_seenB (s : State) (t : Timestamp) : (s.markAccepted .b t).seenB = true := rfl
@[simp] theorem markAccepted_b_lastB (s : State) (t : Timestamp) : (s.markAccepted .b t).lastB = t := rfl

theorem packGRB_topByte (g r b : Byte) : (packGRB g r b).extractLsb' 24 8 = 0 := by
  have := g.isLt; have := r.isLt; have := b.isLt
  have zero : (0 : Byte).toNat = 0 := rfl
  apply BitVec.eq_of_toNat_eq
  rw [BitVec.extractLsb'_toNat, packGRB_toNat, Nat.shiftRight_eq_div_pow, zero]
  omega

/-! Legal states: every update an event makes keeps them legal -/

theorem State.reset_legal : State.reset.Legal where
  counter := by decide
  frameDigit := by decide
  frameIdx := by decide
  idleAtZero _ := rfl
  neverSeenA _ := rfl
  neverSeenB _ := rfl
  encTopByte := by decide
  histCellWords := List.forall_mem_nil _

theorem State.Legal.countUp {s : State} (h : s.Legal) : s.countUp.Legal := by
  rw [State.countUp_eq]
  exact { h with counter := State.countUp_legal h.counter }

theorem State.Legal.countDown {s : State} (h : s.Legal) : s.countDown.Legal := by
  rw [State.countDown_eq]
  exact { h with counter := State.countDown_legal h.counter }

theorem State.Legal.markAccepted {s : State} (h : s.Legal) (x : Button) (t : Timestamp) : (s.markAccepted x t).Legal := by
  cases x with
  | a => exact { h with neverSeenA := nofun }
  | b => exact { h with neverSeenB := nofun }

theorem State.Legal.startFrame {s : State} (h : s.Legal) :
    State.Legal { s with frameDigit := s.counter, frameIdx := 0, frameBusy := true } :=
  { h with frameDigit := h.counter, frameIdx := Nat.zero_le 24, idleAtZero := nofun }

theorem State.Legal.frameLegal {s : State} (h : s.Legal) : s.frameLegal :=
  ⟨Nat.lt_succ_of_le h.frameDigit, Nat.lt_succ_of_le h.frameIdx⟩

theorem State.Legal.presentedWord_isCellWord {s : State} (h : s.Legal) : isCellWord (s.presentedWord Config.built) := by
  obtain ⟨hd, hk⟩ := h.frameLegal
  rw [presentedWord_legal _ hd hk]
  exact pixelWord_isCellWord _ _

theorem State.Legal.transfer {s : State} (h : s.Legal) {w : PixelWord} (hw : isCellWord w) : (s.transfer w).Legal :=
  { h with histCellWords := List.forall_mem_append.mpr ⟨h.histCellWords, List.forall_mem_singleton.mpr hw⟩ }

/-- A frame in flight moves on to a position that exists, or ends at position 0 (`10_state.md` R18). -/
theorem State.Legal.advanceFrame {s : State} (h : s.Legal) (busy : s.frameBusy = true) : s.advanceFrame.Legal := by
  rcases Nat.lt_or_eq_of_le h.frameIdx with before | last
  · obtain ⟨stays, next⟩ := State.advanceFrame_next before
    exact {
      counter := by simpa using h.counter
      frameDigit := by simpa using h.frameDigit
      frameIdx := next ▸ before
      idleAtZero := by simp [stays, busy]
      neverSeenA := by simpa using h.neverSeenA
      neverSeenB := by simpa using h.neverSeenB
      encTopByte := by simpa using h.encTopByte
      histCellWords := by simpa using h.histCellWords }
  · rw [State.advanceFrame_last last]
    exact { h with frameIdx := Nat.zero_le 24, idleAtZero := fun _ => rfl }

theorem State.Legal.acceptWith {s : State} (h : s.Legal) : (acceptWith Config.built s).Legal := by
  cases busy : s.frameBusy with
  | false => rwa [acceptWith_idle _ busy]
  | true =>
    rw [acceptWith_legal _ busy h.frameLegal]
    exact (h.transfer h.presentedWord_isCellWord).advanceFrame busy

/-- In a legal state every event completes, and in a legal state again. -/
theorem exec_next_legal (i : Instr) {s : State} (h : s.Legal) : ∃ t, exec i s = .next t ∧ t.Legal := by
  cases i with
  | edgeA ts =>
    refine ⟨_, exec_edgeA ts s, ?_⟩
    split
    · exact h
    · exact (h.markAccepted .a ts).countUp
  | edgeB ts =>
    refine ⟨_, exec_edgeB ts s, ?_⟩
    split
    · exact h
    · exact (h.markAccepted .b ts).countDown
  | tick ts =>
    refine ⟨_, rfl, ?_⟩
    split
    · exact { h with } -- `Legal` says nothing of the heartbeat
    · exact h
  | frame =>
    cases busy : s.frameBusy with
    | true => exact ⟨s, execFrame_busy busy, h⟩
    | false => exact ⟨_, execFrame_start busy h.counter, h.startFrame⟩
  | accept => exact ⟨_, rfl, h.acceptWith⟩
  | encode g r b => exact ⟨_, rfl, { h with encTopByte := packGRB_topByte _ _ _ }⟩
  | reset => exact ⟨_, rfl, { State.reset_legal with histCellWords := h.histCellWords }⟩

theorem exec_keeps_legal {i : Instr} {s t : State} (h : s.Legal) (e : exec i s = .next t) : t.Legal := by
  obtain ⟨u, e', hu⟩ := exec_next_legal i h
  obtain rfl := Host.Outcome.next.inj (e.symm.trans e')
  exact hu

/-! The access table (`10_state.md` R23) -/

theorem StateCell.same_refl (c : StateCell) (s : State) : c.same s s := by
  cases c <;> simp [StateCell.same]

/-- The left half of the table: whether it completes or faults, an event leaves the cells it is not marked W for. -/
theorem stateAfter_exec_same (i : Instr) (s : State) {c : StateCell} (hc : c ∉ cellsWritten i.mnemonic) :
    c.same (stateAfter s (exec i s)) s := by
  cases i with
  | edgeA ts =>
    rw [exec_edgeA, stateAfter]
    split
    · exact c.same_refl s
    · cases c <;> simp_all [cellsWritten, Instr.mnemonic, StateCell.same]
  | edgeB ts =>
    rw [exec_edgeB, stateAfter]
    split
    · exact c.same_refl s
    · cases c <;> simp_all [cellsWritten, Instr.mnemonic, StateCell.same]
  | tick ts =>
    rw [exec, execTick, stateAfter]
    split
    · cases c <;> simp_all [cellsWritten, Instr.mnemonic, StateCell.same]
    · exact c.same_refl s
  | frame =>
    rw [exec]
    rcases execFrame_cases s with ⟨-, e⟩ | ⟨-, -, e⟩ | ⟨-, -, e⟩ <;> rw [e, stateAfter]
    · exact c.same_refl s
    · cases c <;> simp_all [cellsWritten, Instr.mnemonic, StateCell.same]
    · cases c <;> simp_all [cellsWritten, Instr.mnemonic, StateCell.same]
  | accept =>
    rw [exec, execAccept, acceptWith_eq, stateAfter]
    cases c <;> simp_all [cellsWritten, Instr.mnemonic, StateCell.same]
  | encode g r b =>
    rw [exec, execEncode, stateAfter]
    cases c <;> simp_all [cellsWritten, Instr.mnemonic, StateCell.same]
  | reset =>
    rw [exec, execReset, stateAfter]
    cases c <;> simp_all [cellsWritten, Instr.mnemonic, StateCell.same]

theorem stateAfter_of_exec {r : Result} {t : State} (h : r = .next t ∨ r = .fault (.digitRange t)) (s : State) :
    stateAfter s r = t := by
  rcases h with rfl | rfl <;> rfl

/-- Two outcomes agree in the given cells, the fault record aside: both are next states that do, or both are faults. -/
def OutcomesAgree (cells : List StateCell) : Result → Result → Prop
  | .next t, .next t' => ∀ c ∈ cells, c = .fault ∨ c.same t t'
  | .fault _, .fault _ => True
  | _, _ => False

theorem OutcomesAgree.next {cells : List StateCell} {r r' : Result} (h : OutcomesAgree cells r r') {t : State}
    (e : r = .next t) : ∃ t', r' = .next t' ∧ ∀ c ∈ cells, c = .fault ∨ c.same t t' := by
  subst e
  cases r' with
  | next t' => exact ⟨t', rfl, h⟩
  | fault f => exact h.elim
  | refused r => exact h.elim

theorem OutcomesAgree.fault {cells : List StateCell} {r r' : Result} (h : OutcomesAgree cells r r') {f : Fault}
    (e : r = .fault f) : ∃ f', r' = .fault f' := by
  subst e
  cases r' with
  | next t' => exact h.elim
  | fault f' => exact ⟨f', rfl⟩
  | refused r => exact h.elim

theorem countUp_counter_congr {s s' : State} (h : s.counter = s'.counter) : s.countUp.counter = s'.countUp.counter :=
  BitVec.eq_of_toNat_eq (by rw [State.countUp_counter, State.countUp_counter, h])

theorem countDown_counter_congr {s s' : State} (h : s.counter = s'.counter) :
    s.countDown.counter = s'.countDown.counter :=
  BitVec.eq_of_toNat_eq (by rw [State.countDown_counter, State.countDown_counter, h])

/-- The right half of the table: what an event does to its cells depends on the cells it is marked R for, and on the count
of draws where it takes a free value (notes/assumptions/7.md and 8.md). -/
theorem exec_outcomesAgree (i : Instr) {s s' : State} (draw : s.draw = s'.draw)
    (read : ∀ c ∈ cellsRead i.mnemonic, c.same s s') :
    OutcomesAgree (cellsWritten i.mnemonic) (exec i s) (exec i s') := by
  cases i with
  | edgeA ts =>
    obtain ⟨counter, seen, last⟩ : s.counter = s'.counter ∧ s.seenA = s'.seenA ∧ s.lastA = s'.lastA := by
      simpa [cellsRead, Instr.mnemonic, StateCell.same] using read
    have up : (s.markAccepted .a ts).countUp.counter = (s'.markAccepted .a ts).countUp.counter :=
      countUp_counter_congr counter
    rw [exec_edgeA, exec_edgeA, seen, last]
    split <;> simp [OutcomesAgree, cellsWritten, Instr.mnemonic, StateCell.same, counter, seen, last, up]
  | edgeB ts =>
    obtain ⟨counter, seen, last⟩ : s.counter = s'.counter ∧ s.seenB = s'.seenB ∧ s.lastB = s'.lastB := by
      simpa [cellsRead, Instr.mnemonic, StateCell.same] using read
    have down : (s.markAccepted .b ts).countDown.counter = (s'.markAccepted .b ts).countDown.counter :=
      countDown_counter_congr counter
    rw [exec_edgeB, exec_edgeB, seen, last]
    split <;> simp [OutcomesAgree, cellsWritten, Instr.mnemonic, StateCell.same, counter, seen, last, down]
  | tick ts =>
    obtain ⟨flag, last⟩ : s.hbFlag = s'.hbFlag ∧ s.hbLast = s'.hbLast := by
      simpa [cellsRead, Instr.mnemonic, StateCell.same] using read
    have due : s.heartbeatDue ts = s'.heartbeatDue ts := by simp only [State.heartbeatDue, last]
    rw [exec, exec, execTick, execTick, due]
    split <;> simp [OutcomesAgree, cellsWritten, Instr.mnemonic, StateCell.same, flag, last]
  | frame =>
    obtain ⟨counter, busy, idx, digit⟩ : s.counter = s'.counter ∧ s.frameBusy = s'.frameBusy ∧
        s.frameIdx = s'.frameIdx ∧ s.frameDigit = s'.frameDigit := by
      simpa [cellsRead, Instr.mnemonic, StateCell.same] using read
    rw [exec, exec]
    rcases execFrame_cases s with ⟨hb, e⟩ | ⟨hb, hc, e⟩ | ⟨hb, hc, e⟩ <;> rw [busy] at hb <;> rw [e]
    · rw [execFrame_busy hb]
      simp [OutcomesAgree, cellsWritten, Instr.mnemonic, StateCell.same, busy, idx, digit]
    · rw [execFrame_fault hb (counter ▸ hc)]
      trivial
    · rw [execFrame_start hb (counter ▸ hc)]
      simp [OutcomesAgree, cellsWritten, Instr.mnemonic, StateCell.same, counter]
  | accept =>
    obtain ⟨busy, idx, digit⟩ : s.frameBusy = s'.frameBusy ∧ s.frameIdx = s'.frameIdx ∧ s.frameDigit = s'.frameDigit := by
      simpa [cellsRead, Instr.mnemonic, StateCell.same] using read
    rw [exec, exec, execAccept, execAccept, acceptWith_eq, acceptWith_eq]
    simp [OutcomesAgree, cellsWritten, Instr.mnemonic, StateCell.same, busyAfterAccept, idxAfterAccept, busy, idx, digit,
      draw]
  | encode g r b => simp [OutcomesAgree, exec, execEncode, cellsWritten, Instr.mnemonic, StateCell.same]
  | reset => simp [OutcomesAgree, exec, execReset, cellsWritten, Instr.mnemonic, StateCell.same]

/-! The fault record (`10_state.md` R20) -/

theorem mayBeFinal_iff (s : State) : s.mayBeFinal = true ↔ s.fault = [] := List.isEmpty_iff

theorem exec_fault_eq {i : Instr} {s : State} {f : Fault} (h : exec i s = .fault f) :
    f = .digitRange (s.recordFault .digitRange) := by
  obtain ⟨rfl, idle, bad⟩ := exec_fault_imp h
  exact Host.Outcome.fault.inj (h.symm.trans (execFrame_fault idle bad))

/-- FRAME alone is marked W for the record, and a FRAME that completes has not faulted. -/
theorem exec_next_fault {i : Instr} {s t : State} (h : exec i s = .next t) : t.fault = s.fault := by
  by_cases isFrame : i = .frame
  · subst isFrame
    rw [exec] at h
    rcases execFrame_cases s with ⟨-, e⟩ | ⟨-, -, e⟩ | ⟨-, -, e⟩ <;> rw [e] at h
    · rw [Host.Outcome.next.inj h]
    · exact nomatch h
    · rw [← Host.Outcome.next.inj h]
  · have unmarked : StateCell.fault ∉ cellsWritten i.mnemonic := by
      cases i <;> simp_all [cellsWritten, Instr.mnemonic]
    have same := stateAfter_exec_same i s unmarked
    rwa [stateAfter_of_exec (.inl h) s] at same

theorem feedWord_fault_prefix (s : State) (w : EventWord) : s.fault <+: (feedWord s w).fault := by
  rcases feedWord_cases s w with ⟨i, t, -, h, e⟩ | ⟨i, t, -, h, e⟩ | ⟨-, -, e⟩ <;> rw [e]
  · rw [exec_next_fault h]
  · rw [Fault.digitRange.inj (exec_fault_eq h)]
    exact List.prefix_append _ _

theorem feed_fault_prefix (s : State) (ws : List EventWord) : s.fault <+: (feed s ws).fault :=
  feed_induction (P := fun t => s.fault <+: t.fault) (fun t w h => h.trans (feedWord_fault_prefix t w))
    (List.prefix_refl _) ws

/-- From a legal state any events run to their end, and none of them adds to the record. -/
theorem execAll_legal (is : List Instr) {s : State} (h : s.Legal) :
    ∃ t, execAll is s = .next t ∧ t.Legal ∧ t.fault = s.fault := by
  induction is generalizing s with
  | nil => exact ⟨s, rfl, h, rfl⟩
  | cons i is ih =>
    obtain ⟨u, e, hu⟩ := exec_next_legal i h
    obtain ⟨t, run, ht, kept⟩ := ih hu
    exact ⟨t, (execAll_cons_next e).trans run, ht, kept.trans (exec_next_fault e)⟩

/-! The obligations -/

/-- Settles O46. -/
theorem powerOnStateIsLegal : Obligations.PowerOnStateIsLegal := State.reset_legal

/-- Settles O47: a step waits or runs an event, and every event keeps the state legal. -/
theorem stepKeepsTheStateLegal : Obligations.StepKeepsTheStateLegal := by
  intro s t legal h
  rcases step_next_cases h with ⟨-, rfl⟩ | ⟨w, rest, i, -, -, e⟩
  · exact legal
  · exact exec_keeps_legal (legal_withEvents rest legal) e

/-- Settles O43, one half of the table at a time. -/
theorem eventsTouchOnlyTheirMarkedCells : Obligations.EventsTouchOnlyTheirMarkedCells := by
  refine ⟨fun i s t h => ⟨exec_events h, fun c hc => ?_⟩, fun i s s' draw read => ?_⟩
  · rw [← stateAfter_of_exec h s]
    exact stateAfter_exec_same i s hc
  · have agree := exec_outcomesAgree i draw read
    exact ⟨fun _ => agree.next, fun _ => agree.fault⟩

/-- Settles O49: the power-on state is legal, and a list of events keeps it so. -/
theorem counterStaysADigitFromPowerOn : Obligations.CounterStaysADigitFromPowerOn := by
  refine ⟨fun is => ?_, fun s idle bad => ⟨_, execFrame_fault idle bad⟩⟩
  obtain ⟨t, run, legal, kept⟩ := execAll_legal is State.reset_legal
  exact ⟨t, run, legal.counter, kept⟩

/-- Settles O50. -/
theorem faultAppendsItsKindAndNothingRemovesIt : Obligations.FaultAppendsItsKindAndNothingRemovesIt :=
  ⟨rfl, fun _ _ _ => exec_fault_eq, fun _ _ _ => exec_next_fault, mayBeFinal_iff⟩

/-- Settles O51, by induction on the words fed: a record that is not empty is a prefix of no empty one. -/
theorem faultRecordOnlyGrowsAlongASequence : Obligations.FaultRecordOnlyGrowsAlongASequence := by
  intro s ws
  have grows := feed_fault_prefix s ws
  refine ⟨grows, fun faulted => ?_⟩
  rw [← Bool.not_eq_true, mayBeFinal_iff] at faulted ⊢
  exact fun empty => faulted (List.prefix_nil.mp (empty ▸ grows))

/-- Settles O34: all outputs but `out_word` are fields, and `out_word` is the presented word while a frame is in flight. -/
theorem outputsShowTheState : Obligations.OutputsShowTheState := by
  intro p s
  refine ⟨rfl, rfl, rfl, rfl, rfl, rfl, fun idle => ?_, fun hd hk busy => ?_⟩
  · rw [State.outWordWith, idle]; rfl
  · rw [State.outWordWith, busy, ← presentedWord_legal p hd hk]; rfl

/-- Settles O44. -/
theorem powerOnAndResetGiveTheResetValues : Obligations.PowerOnAndResetGiveTheResetValues :=
  ⟨⟨rfl, rfl, rfl, rfl, rfl, rfl, rfl, rfl, rfl, rfl, rfl, rfl⟩, fun _ => rfl, by decide⟩

end Sys2Proof.Machine
end

section
/-! The words that leave and the bytes that come in (`20_memory.md`): a word leaves by an ACCEPT during a frame alone
(R27, R31), and an event word is carried as bytes from the top down (R30). -/

namespace Sys2Proof

/-- The byte above the low `n` bits extends them to the low `8 + n` bits. -/
theorem extractByte_append_lowBits (w : EventWord) (n : Nat) :
    w.extractLsb' n 8 ++ w.extractLsb' 0 n = w.extractLsb' 0 (8 + n) :=
  BitVec.extractLsb'_append_extractLsb'_eq_extractLsb' (Nat.zero_add n).symm

theorem bytesOfWord_toNat (w : EventWord) :
    (bytesOfWord w).map BitVec.toNat = (List.range 8).map (fun k => w.toNat / 2 ^ (8 * (7 - k)) % 2 ^ 8) := by
  have indices : List.range 8 = [0, 1, 2, 3, 4, 5, 6, 7] := rfl
  simp only [indices, bytesOfWord, List.map, BitVec.extractLsb'_toNat, Nat.shiftRight_eq_div_pow]

/-- Read from the last byte up, each byte joins the low bits below it, until all 64 bits of the word are there. -/
theorem wordOfBytes_bytesOfWord_append (w : EventWord) (rest : List Byte) :
    wordOfBytes (bytesOfWord w ++ rest) = some (w, rest) := by
  simp only [bytesOfWord, wordOfBytes, List.cons_append, List.nil_append, extractByte_append_lowBits]
  rw [BitVec.extractLsb'_eq_self]

end Sys2Proof

namespace Sys2Proof.Machine

/-! The output history -/

theorem edge_hist (x : Button) {effect : State → State} (kept : ∀ u : State, (effect u).hist = u.hist) (t : Timestamp)
    (s : State) : (edge x effect t s).hist = s.hist := by
  rw [edge_eq]
  split
  · rfl
  · rw [kept, State.markAccepted_hist]

theorem acceptWith_hist (s : State) :
    (acceptWith Config.built s).hist = if s.frameBusy = true then s.hist ++ [s.outWord] else s.hist := by
  rw [acceptWith_eq, State.outWord, State.outWordWith]
  cases s.frameBusy with
  | false => exact List.append_nil _
  | true => rfl

theorem exec_hist_of_ne_accept {i : Instr} (ne : i ≠ .accept) {s t : State} (h : exec i s = .next t) :
    t.hist = s.hist := by
  cases i with
  | edgeA ts =>
    rw [← Host.Outcome.next.inj h]
    exact edge_hist .a State.countUp_hist ts s
  | edgeB ts =>
    rw [← Host.Outcome.next.inj h]
    exact edge_hist .b State.countDown_hist ts s
  | tick ts =>
    rw [← Host.Outcome.next.inj h]
    split <;> rfl
  | frame =>
    rw [exec] at h
    rcases execFrame_cases s with ⟨-, e⟩ | ⟨-, -, e⟩ | ⟨-, -, e⟩ <;> rw [e] at h
    · rw [Host.Outcome.next.inj h]
    · exact nomatch h
    · rw [← Host.Outcome.next.inj h]
  | accept => exact absurd rfl ne
  | encode g r b => rw [← Host.Outcome.next.inj h]
  | reset => rw [← Host.Outcome.next.inj h]

/-! The obligations -/

/-- Settles O29: ACCEPT adds the presented word while a frame is in flight, and every other event keeps the history. -/
theorem wordsLeaveOnlyByAcceptAsPresented : Obligations.WordsLeaveOnlyByAcceptAsPresented := by
  intro i s t h
  by_cases isAccept : i = .accept
  · subst isAccept
    rw [← Host.Outcome.next.inj h, acceptWith_hist]
    simp only [true_and]
  · rw [exec_hist_of_ne_accept isAccept h, if_neg fun both => isAccept both.1]

/-- Settles O8: the digits, the word read back, and the decoding of the word read back. -/
theorem eventBytesGoMostSignificantFirst : Obligations.EventBytesGoMostSignificantFirst := by
  intro w rest
  have readBack := wordOfBytes_bytesOfWord_append w rest
  exact ⟨bytesOfWord_toNat w, readBack, by rw [decodeBytes, readBack]; rfl⟩

end Sys2Proof.Machine
end

section
/-! The EV64 encoding (`30_encoding.md`): the fields of a legal word make the word up again (R42, R45), a row of the opcode
map spells exactly the words of its events (R43), an illegal word has one reason (R46) and leaves no trace, a text's
operands must fit their fields (R49), and the two pseudo-instructions are fixed sequences (R50). -/

namespace Sys2Proof

/-! The fields of a word with zero reserved bits make it up again -/

theorem encodeT_fields {w : EventWord} (zero : reservedT w = 0) : encodeT (opField w) (tsField w) = w := by
  rw [reservedT_eq_zero_iff] at zero
  apply BitVec.eq_of_toNat_eq
  rw [encodeT_toNat, opField_toNat, tsField_toNat]
  omega

theorem encodeN_opField {w : EventWord} (zero : reservedN w = 0) : encodeN (opField w) = w := by
  rw [reservedN_eq_zero_iff] at zero
  apply BitVec.eq_of_toNat_eq
  rw [encodeN_toNat, opField_toNat]
  omega

theorem encodeC_fields {w : EventWord} (zero : reservedC w = 0) :
    encodeC (opField w) (gField w) (rField w) (bField w) = w := by
  rw [reservedC_eq_zero_iff] at zero
  apply BitVec.eq_of_toNat_eq
  rw [encodeC_toNat, opField_toNat, gField_toNat, rField_toNat, bField_toNat]
  omega

theorem encode_of_decode {w : EventWord} {i : Instr} (h : decode w = .event i) : encode i = w := by
  rcases decode_event_cases h with ⟨op, zero, rfl⟩ | ⟨op, zero, rfl⟩ | ⟨op, zero, rfl⟩ | ⟨op, zero, rfl⟩ |
    ⟨op, zero, rfl⟩ | ⟨op, zero, rfl⟩ | ⟨op, zero, rfl⟩ <;> rw [encode, ← op]
  · exact encodeT_fields zero
  · exact encodeT_fields zero
  · exact encodeT_fields zero
  · exact encodeN_opField zero
  · exact encodeN_opField zero
  · exact encodeC_fields zero
  · exact encodeN_opField zero

/-- The words that spell an event are exactly one word, the event's own. -/
theorem decode_eq_event_iff {w : EventWord} {i : Instr} : decode w = .event i ↔ encode i = w :=
  ⟨encode_of_decode, fun h => h ▸ decode_encode i⟩

/-! The words a mask and a match pick out, format by format; a match is the opcode above zeros -/

theorem and_maskT_eq_iff (w : EventWord) (op : BitVec 4) :
    w &&& 0xFFFFFFFF00000000 = encodeN op ↔ ∃ ts, encodeT op ts = w := by
  rw [← BitVec.toNat_inj, and_highMask_toNat w _ 32 (by decide) (by decide), encodeN_toNat]
  constructor
  · intro shown
    have opIs : opField w = op := (opField_eq_iff w op).mpr (by omega)
    have zero : reservedT w = 0 := (reservedT_eq_zero_iff w).mpr (by omega)
    exact ⟨_, opIs ▸ encodeT_fields zero⟩
  · rintro ⟨ts, rfl⟩
    have := ts.isLt
    rw [encodeT_toNat]
    omega

theorem and_maskN_eq_iff (w : EventWord) (op : BitVec 4) : w &&& 0xFFFFFFFFFFFFFFFF = encodeN op ↔ encodeN op = w := by
  have whole : w &&& 0xFFFFFFFFFFFFFFFF = w := BitVec.and_allOnes
  rw [whole, eq_comm]

theorem and_maskC_eq_iff (w : EventWord) (op : BitVec 4) :
    w &&& 0xFFF8000000000000 = encodeN op ↔ ∃ g r b, encodeC op g r b = w := by
  rw [← BitVec.toNat_inj, and_highMask_toNat w _ 51 (by decide) (by decide), encodeN_toNat]
  constructor
  · intro shown
    have opIs : opField w = op := (opField_eq_iff w op).mpr (by omega)
    have zero : reservedC w = 0 := (reservedC_eq_zero_iff w).mpr (by omega)
    exact ⟨_, _, _, opIs ▸ encodeC_fields zero⟩
  · rintro ⟨g, r, b, rfl⟩
    have := g.isLt; have := r.isLt; have := b.isLt
    rw [encodeC_toNat]
    omega

/-! The opcode map's rows -/

theorem showsItsOwnRow (i : Instr) : Laws.ShowsItsOwnRow.Statement i := by
  cases i with
  | edgeA ts => exact Laws.ShowsItsOwnRow.edgeA ts
  | edgeB ts => exact Laws.ShowsItsOwnRow.edgeB ts
  | tick ts => exact Laws.ShowsItsOwnRow.tick ts
  | frame => exact Laws.ShowsItsOwnRow.frame
  | accept => exact Laws.ShowsItsOwnRow.accept
  | encode g r b => exact Laws.ShowsItsOwnRow.encode g r b
  | reset => exact Laws.ShowsItsOwnRow.reset

theorem spelledBy_encode_iff (i : Instr) {row : OpcodeRow} (mem : row ∈ opcodeTable) :
    row.spelledBy (encode i) = true ↔ row.mnemonic = i.mnemonic :=
  (showsItsOwnRow i).1 row mem

/-- A word that a row spells is the word of some event: its operand bits are free and its other bits are the match. -/
theorem exists_encode_of_spelledBy {row : OpcodeRow} (mem : row ∈ opcodeTable) {w : EventWord}
    (spelled : row.spelledBy w = true) : ∃ i, encode i = w := by
  rw [OpcodeRow.spelledBy, decide_eq_true_eq] at spelled
  simp only [opcodeTable, List.mem_cons, List.not_mem_nil, or_false] at mem
  rcases mem with rfl | rfl | rfl | rfl | rfl | rfl | rfl
  · obtain ⟨ts, h⟩ := (and_maskT_eq_iff w 1).mp spelled
    exact ⟨.edgeA ts, h⟩
  · obtain ⟨ts, h⟩ := (and_maskT_eq_iff w 2).mp spelled
    exact ⟨.edgeB ts, h⟩
  · obtain ⟨ts, h⟩ := (and_maskT_eq_iff w 3).mp spelled
    exact ⟨.tick ts, h⟩
  · exact ⟨.frame, (and_maskN_eq_iff w 4).mp spelled⟩
  · exact ⟨.accept, (and_maskN_eq_iff w 5).mp spelled⟩
  · obtain ⟨g, r, b, h⟩ := (and_maskC_eq_iff w 6).mp spelled
    exact ⟨.encode g r b, h⟩
  · exact ⟨.reset, (and_maskN_eq_iff w 7).mp spelled⟩

theorem opcodeTable_eq_of_mnemonic_eq : ∀ row ∈ opcodeTable, ∀ row' ∈ opcodeTable,
    row.mnemonic = row'.mnemonic → row = row' := by decide

/-! Illegal words -/

/-- The opcode alone picks how the rest of the word is read. -/
theorem decode_by_opcode (w : EventWord) :
    ((w.toNat / 2 ^ 60 = 1 ∨ w.toNat / 2 ^ 60 = 2 ∨ w.toNat / 2 ^ 60 = 3) ∧ ∃ event, decode w = decodeT event w) ∨
    ((w.toNat / 2 ^ 60 = 4 ∨ w.toNat / 2 ^ 60 = 5 ∨ w.toNat / 2 ^ 60 = 7) ∧ ∃ event, decode w = decodeN event w) ∨
    (w.toNat / 2 ^ 60 = 6 ∧ decode w = decodeC w) ∨
    ((w.toNat / 2 ^ 60 = 0 ∨ 8 ≤ w.toNat / 2 ^ 60) ∧ decode w = .refuse .illegalOp) := by
  unfold decode
  simp only [opField_eq_iff, BitVec.reduceToNat]
  split
  · next op => exact .inl ⟨.inl op, _, rfl⟩
  split
  · next op => exact .inl ⟨.inr (.inl op), _, rfl⟩
  split
  · next op => exact .inl ⟨.inr (.inr op), _, rfl⟩
  split
  · next op => exact .inr (.inl ⟨.inl op, _, rfl⟩)
  split
  · next op => exact .inr (.inl ⟨.inr (.inl op), _, rfl⟩)
  split
  · next op => exact .inr (.inr (.inl ⟨op, rfl⟩))
  split
  · next op => exact .inr (.inl ⟨.inr (.inr op), _, rfl⟩)
  · exact .inr (.inr (.inr ⟨by omega, rfl⟩))

theorem decodeT_eq_refuse_iff {event : Timestamp → Instr} {w : EventWord} {reason : IllegalReason} :
    decodeT event w = .refuse reason ↔ reason = .reservedNonzero ∧ w.toNat / 2 ^ 32 % 2 ^ 28 ≠ 0 := by
  rw [Ne, ← reservedT_eq_zero_iff, decodeT]
  split <;> simp_all [eq_comm]

theorem decodeN_eq_refuse_iff {event : Instr} {w : EventWord} {reason : IllegalReason} :
    decodeN event w = .refuse reason ↔ reason = .reservedNonzero ∧ w.toNat % 2 ^ 60 ≠ 0 := by
  rw [Ne, ← reservedN_eq_zero_iff, decodeN]
  split <;> simp_all [eq_comm]

theorem decodeC_eq_refuse_iff {w : EventWord} {reason : IllegalReason} :
    decodeC w = .refuse reason ↔ reason = .reservedNonzero ∧ w.toNat / 2 ^ 51 % 2 ^ 9 ≠ 0 := by
  rw [Ne, ← reservedC_eq_zero_iff, decodeC]
  split <;> simp_all [eq_comm]

theorem decode_eq_illegalOp_iff (w : EventWord) :
    decode w = .refuse .illegalOp ↔ w.toNat / 2 ^ 60 = 0 ∨ 8 ≤ w.toNat / 2 ^ 60 := by
  rcases decode_by_opcode w with ⟨op, event, e⟩ | ⟨op, event, e⟩ | ⟨op, e⟩ | ⟨op, e⟩ <;> rw [e]
  · simp only [decodeT_eq_refuse_iff, reduceCtorEq, false_and, false_iff]; omega
  · simp only [decodeN_eq_refuse_iff, reduceCtorEq, false_and, false_iff]; omega
  · simp only [decodeC_eq_refuse_iff, reduceCtorEq, false_and, false_iff]; omega
  · simpa only [true_iff] using op

theorem decode_eq_reservedNonzero_iff (w : EventWord) :
    decode w = .refuse .reservedNonzero ↔
      ((w.toNat / 2 ^ 60 = 1 ∨ w.toNat / 2 ^ 60 = 2 ∨ w.toNat / 2 ^ 60 = 3) ∧ w.toNat / 2 ^ 32 % 2 ^ 28 ≠ 0) ∨
      ((w.toNat / 2 ^ 60 = 4 ∨ w.toNat / 2 ^ 60 = 5 ∨ w.toNat / 2 ^ 60 = 7) ∧ w.toNat % 2 ^ 60 ≠ 0) ∨
      (w.toNat / 2 ^ 60 = 6 ∧ w.toNat / 2 ^ 51 % 2 ^ 9 ≠ 0) := by
  rcases decode_by_opcode w with ⟨op, event, e⟩ | ⟨op, event, e⟩ | ⟨op, e⟩ | ⟨op, e⟩ <;> rw [e]
  · simp only [decodeT_eq_refuse_iff, true_and]; omega
  · simp only [decodeN_eq_refuse_iff, true_and]; omega
  · simp only [decodeC_eq_refuse_iff, true_and]; omega
  · simp only [Decoded.refuse.injEq, reduceCtorEq, false_iff]; omega

/-- The decoder is total: a word is an event or has one of the two reasons. -/
theorem exists_decode_event_iff (w : EventWord) :
    (∃ i, decode w = .event i) ↔ decode w ≠ .refuse .illegalOp ∧ decode w ≠ .refuse .reservedNonzero := by
  cases decode w with
  | event i => simp
  | refuse reason => cases reason <;> simp

/-! Events as texts write them -/

theorem toInstr_isSome (e : RawEvent) : e.toInstr.isSome = e.wellFormed := by
  obtain ⟨m, ops⟩ := e
  unfold RawEvent.toInstr
  split
  · next fits =>
    rw [fits]
    split <;> simp_all [RawEvent.wellFormed]
  · next unfit => simpa using unfit

theorem toRaw_wellFormed (i : Instr) : i.toRaw.wellFormed = true := (showsItsOwnRow i).2

theorem toInstr_toRaw (i : Instr) : i.toRaw.toInstr = some i := by
  rw [RawEvent.toInstr, if_pos (toRaw_wellFormed i)]
  cases i <;> simp [Instr.toRaw, Instr.mnemonic, Instr.operands]

end Sys2Proof

namespace Sys2Proof.Machine

theorem channelValue_eq (v : Channel) : channelValue v = (v.toNat : ℚ) / 65536 := by
  norm_num [channelValue, Config.channelFracBits]

/-! Refused words -/

theorem runWord_of_refuse {w : EventWord} {reason : IllegalReason} (h : decode w = .refuse reason) (s : State) :
    runWord w s = .refused (refusalOf reason) := by
  simp [runWord, h]

theorem feedWord_of_refuse {w : EventWord} {reason : IllegalReason} (h : decode w = .refuse reason) (s : State) :
    feedWord s w = s := by
  rw [feedWord, runWord_of_refuse h, stateAfter]

theorem step_and_afterEvent_of_refuse {s : State} {w : EventWord} {rest : List EventWord} {reason : IllegalReason}
    (taken : s.events = w :: rest) (h : decode w = .refuse reason) :
    step s = .refused (refusalOf reason) ∧ afterEvent s = s.withEvents rest :=
  ⟨(step_cons taken).trans (runWord_of_refuse h _), (afterEvent_cons taken).trans (feedWord_of_refuse h _)⟩

/-! One iteration of the main loop -/

theorem acceptWith_before_last (p : Params) {s : State} (busy : s.frameBusy = true) (hd : s.frameDigit.toNat < 10)
    (before : s.frameIdx.toNat < 24) :
    acceptWith p s = { s with hist := s.hist ++ [s.presentedWord p], frameIdx := s.frameIdx + 1 } := by
  have not24 : s.frameIdx.toNat ≠ 24 := by omega
  have not31 : s.frameIdx.toNat ≠ 31 := by omega
  rw [acceptWith_legal p busy ⟨hd, by omega⟩]
  simp [State.advanceFrame, State.transfer, not24, not31]

theorem acceptWith_last (p : Params) {s : State} (busy : s.frameBusy = true) (hd : s.frameDigit.toNat < 10)
    (last : s.frameIdx.toNat = 24) :
    acceptWith p s = { s with hist := s.hist ++ [s.presentedWord p], frameBusy := false, frameIdx := 0 } := by
  rw [acceptWith_legal p busy ⟨hd, by omega⟩]
  exact State.advanceFrame_last last

/-- The words of digit `d` from position `k` on. -/
def wordsFrom (d : Fin 10) (k : Nat) : List PixelWord := ((List.finRange 25).drop k).map (pixelWord Config.built d)

theorem wordsFrom_eq_cons (d : Fin 10) {k : Nat} (hk : k < 25) :
    wordsFrom d k = pixelWord Config.built d ⟨k, hk⟩ :: wordsFrom d (k + 1) := by
  rw [wordsFrom, List.drop_eq_getElem_cons (by simpa using hk)]
  simp [wordsFrom]

/-- As many ACCEPTs as positions are left in a frame transfer the words of those positions and end the frame. -/
theorem execAll_acceptN_ends_frame {n : Nat} {s : State} (busy : s.frameBusy = true) (hd : s.frameDigit.toNat < 10)
    (hk : s.frameIdx.toNat < 25) (left : s.frameIdx.toNat + n = 25) :
    execAll (acceptN n) s = .next { s with
      hist := s.hist ++ wordsFrom ⟨s.frameDigit.toNat, hd⟩ s.frameIdx.toNat, frameBusy := false, frameIdx := 0 } := by
  induction n generalizing s with
  | zero => omega
  | succ n ih =>
    have head : execAll (acceptN (n + 1)) s = execAll (acceptN n) (acceptWith Config.built s) := execAll_cons_next rfl
    rw [head, wordsFrom_eq_cons _ hk, ← presentedWord_legal Config.built hd hk]
    rcases Nat.lt_or_ge s.frameIdx.toNat 24 with before | ge
    · have one : (1 : IdxReg).toNat = 1 := rfl
      have next : (s.frameIdx + 1).toNat = s.frameIdx.toNat + 1 := by rw [BitVec.toNat_add, one]; omega
      have hk' : (s.frameIdx + 1).toNat < 25 := by omega
      have left' : (s.frameIdx + 1).toNat + n = 25 := by omega
      rw [acceptWith_before_last _ busy hd before]
      refine (ih (s := { s with hist := _, frameIdx := s.frameIdx + 1 }) busy hd hk' left').trans ?_
      simp only [next, List.append_assoc, List.singleton_append]
    · obtain rfl : n = 0 := by omega
      have last : s.frameIdx.toNat = 24 := by omega
      rw [acceptWith_last _ busy hd last, last]
      rfl

/-- FRAME in an idle state and 25 ACCEPTs transfer every word of the counter's digit (`42_matrix_renderer.md` R65). -/
theorem execAll_frame_acceptN {s : State} (idle : s.frameBusy = false) (hd : s.counter.toNat < 10) :
    execAll (.frame :: acceptN 25) s = .next { s with
      hist := s.hist ++ (List.finRange 25).map (pixelWord Config.built ⟨s.counter.toNat, hd⟩)
      frameBusy := false, frameIdx := 0, frameDigit := s.counter } := by
  have started : exec .frame s = .next { s with frameDigit := s.counter, frameIdx := 0, frameBusy := true } :=
    execFrame_start idle (Nat.le_of_lt_succ hd)
  rw [execAll_cons_next started]
  exact execAll_acceptN_ends_frame rfl hd (Nat.zero_lt_succ 24) rfl

theorem heartbeatDue_iff (s : State) (ts : Timestamp) : s.heartbeatDue ts = true ↔ 100 < msBetween s.hbLast ts := by
  rw [State.heartbeatDue, elapsed_toNat, decide_eq_true_iff, Config.heartbeatPeriod]

/-- All that a TICK can do: toggle the heartbeat and keep its time, where more than 100 ms have passed. -/
theorem exec_tick (ts : Timestamp) (s : State) :
    exec (.tick ts) s = .next
      (if 100 < msBetween s.hbLast ts then { s with hbFlag := !s.hbFlag, hbLast := ts } else s) := by
  simp only [exec, execTick, heartbeatDue_iff]

/-! The obligations -/

/-- Settles O1. -/
theorem decodingAnEncodedEventGivesItBack : Obligations.DecodingAnEncodedEventGivesItBack := decode_encode

/-- Settles O2: every format's fields, with its reserved bits 0, make the word up again. -/
theorem encodingADecodedWordGivesItBack : Obligations.EncodingADecodedWordGivesItBack := fun _ _ => encode_of_decode

/-- Settles O3: an event is read exactly from its own word, and the words of a mnemonic are those its row's mask and match
pick out. -/
theorem wordSpellsEventExactlyByMaskAndMatch : Obligations.WordSpellsEventExactlyByMaskAndMatch := by
  intro w
  simp only [decode_eq_event_iff]
  exact ⟨(and_maskT_eq_iff w 1).symm, (and_maskT_eq_iff w 2).symm, (and_maskT_eq_iff w 3).symm,
    (and_maskN_eq_iff w 4).symm, (and_maskN_eq_iff w 5).symm, (and_maskC_eq_iff w 6).symm, (and_maskN_eq_iff w 7).symm,
    decode_eq_illegalOp_iff w⟩

/-- Settles O4: a spelled word is some event's word, and an event's word shows the row of its mnemonic alone. -/
theorem opcodeTableRowsAgreeWithTheDecoder : Obligations.OpcodeTableRowsAgreeWithTheDecoder := by
  refine ⟨fun row mem w => ?_, fun row mem row' mem' w spelled spelled' => ?_⟩
  · simp only [decode_eq_event_iff]
    constructor
    · intro spelled
      obtain ⟨i, rfl⟩ := exists_encode_of_spelledBy mem spelled
      exact ⟨i, rfl, ((spelledBy_encode_iff i mem).mp spelled).symm⟩
    · rintro ⟨i, rfl, same⟩
      exact (spelledBy_encode_iff i mem).mpr same.symm
  · obtain ⟨i, rfl⟩ := exists_encode_of_spelledBy mem spelled
    have same := ((spelledBy_encode_iff i mem).mp spelled).trans ((spelledBy_encode_iff i mem').mp spelled').symm
    exact opcodeTable_eq_of_mnemonic_eq row mem row' mem' same

/-- Settles O5: the word is the event's own, and the fields of an event's word are its operands. -/
theorem operandsAreTheNamedBitsUnscaled : Obligations.OperandsAreTheNamedBitsUnscaled := by
  intro w
  simp only [decode_eq_event_iff]
  refine ⟨fun ts read => ?_, fun g r b read => ?_⟩
  · have field : tsField w = ts := by
      rcases read with rfl | rfl | rfl <;> exact tsField_encodeT _ ts
    rw [← field, tsField_toNat]
  · subst read
    have green : gField (encode (.encode g r b)) = g := gField_encodeC 6 g r b
    have red : rField (encode (.encode g r b)) = r := rField_encodeC 6 g r b
    have blue : bField (encode (.encode g r b)) = b := bField_encodeC 6 g r b
    rw [← gField_toNat, ← rField_toNat, ← bField_toNat, green, red, blue]
    exact ⟨rfl, rfl, rfl, channelValue_eq g, channelValue_eq r, channelValue_eq b⟩

/-- Settles O6: each reason's words, and as the decoder is total, the legal words are the rest. -/
theorem reservedBitsAreZeroInEveryLegalWord : Obligations.ReservedBitsAreZeroInEveryLegalWord := by
  intro w
  refine ⟨decode_eq_illegalOp_iff w, decode_eq_reservedNonzero_iff w, ?_⟩
  rw [exists_decode_event_iff, Ne, Ne, decode_eq_illegalOp_iff, decode_eq_reservedNonzero_iff]
  omega

/-- Settles O9: the assembler takes exactly the well-formed events. -/
theorem assemblerTakesExactlyFittingOperands : Obligations.AssemblerTakesExactlyFittingOperands := by
  refine ⟨fun ts m isT => ?_, fun g r b => ?_, fun i => ⟨toRaw_wellFormed i, toInstr_toRaw i⟩⟩
  · rw [toInstr_isSome]
    rcases isT with rfl | rfl | rfl <;> simp [RawEvent.wellFormed, fitsTimestamp]
  · rw [toInstr_isSome]
    simp [RawEvent.wellFormed, fitsChannel, and_assoc]

/-- Settles O10, by running the assembler on the texts. -/
theorem printedExampleTextsAssemble : Obligations.PrintedExampleTextsAssemble := by
  exact ⟨by decide, by decide, by decide, by decide, by decide⟩

/-- Settles O11. -/
theorem pseudoInstructionsExpandToFixedSequences : Obligations.PseudoInstructionsExpandToFixedSequences :=
  ⟨fun _ => ⟨List.length_replicate, fun _ => List.eq_of_mem_replicate⟩, fun _ => rfl⟩

/-- Settles O13. -/
theorem refusedWordChangesNoState : Obligations.RefusedWordChangesNoState := fun _ _ _ taken =>
  ⟨step_and_afterEvent_of_refuse taken, step_and_afterEvent_of_refuse taken⟩

/-- Settles O17, by induction on the words: a refused word leaves the state it met. -/
theorem illegalWordsLeaveNoTraceInASequence : Obligations.IllegalWordsLeaveNoTraceInASequence := by
  intro s ws
  induction ws generalizing s with
  | nil => rfl
  | cons w ws ih =>
    rw [feed_cons, ih, List.filter_cons]
    cases read : decode w with
    | event i => rfl
    | refuse reason => rw [feedWord_of_refuse read]; rfl

/-- Settles O33: TICK touches the heartbeat alone, FRAME starts the frame at position 0, and 25 ACCEPTs end it. -/
theorem iterationShowsTheCounterWhole : Obligations.IterationShowsTheCounterWhole := by
  intro s ts h idle
  rw [iter, execAll_cons_next (exec_tick ts s)]
  split
  · exact ⟨_, execAll_frame_acceptN (s := { s with hbFlag := !s.hbFlag, hbLast := ts }) idle h, rfl, rfl, rfl, rfl⟩
  · exact ⟨_, execAll_frame_acceptN idle h, rfl, rfl, rfl, rfl⟩

end Sys2Proof.Machine
end

section
/-! The pixel encoder (`41_pixel_encoder.md`): the byte of a channel, exact and on the port, the byte fields of a packed
word, and what ENCODE writes. -/

namespace Sys2Proof.Machine

/-! The byte of an exact channel -/

theorem byteOf_of_mem {c : ℚ} (h0 : 0 ≤ c) (h1 : c ≤ 1) : (byteOf c).toNat = ⌊c * 255⌋₊ := by
  rw [byteOf_toNat, clamp01_of_mem h0 h1, Int.floor_toNat]

theorem byteOf_of_one_le {c : ℚ} (h : 1 ≤ c) : (byteOf c).toNat = 255 := by
  rw [byteOf_toNat, clamp01_of_one_le h, one_mul, Int.floor_toNat, Nat.floor_ofNat]

theorem byteOf_of_nonpos {c : ℚ} (h : c ≤ 0) : (byteOf c).toNat = 0 := by
  rw [byteOf_toNat, clamp01_of_nonpos h, zero_mul, Int.floor_zero, Int.toNat_zero]

/-! The byte of a port operand -/

/-- Only the upper clamp can act on a port operand (`41_pixel_encoder.md` R54). -/
theorem clamp01_natCast_div (n : ℕ) : clamp01 ((n : ℚ) / 65536) = (min n 65536 : ℕ) / 65536 := by
  rcases le_total n 65536 with small | large
  · have le : (n : ℚ) / 65536 ≤ 1 := (div_le_one (by norm_num)).mpr (by exact_mod_cast small)
    rw [clamp01_of_mem (by positivity) le, min_eq_left small]
  · have ge : 1 ≤ (n : ℚ) / 65536 := (one_le_div (by norm_num)).mpr (by exact_mod_cast large)
    rw [clamp01_of_one_le ge, min_eq_right large]
    norm_num

/-- Both scalings are the floor of one exact quotient, and a floor of a quotient of naturals is their division. -/
theorem byteQ_eq_byteOf (v : Channel) : byteQ v = byteOf ((v.toNat : ℚ) / 65536) := by
  have scaled : ((min v.toNat 65536 : ℕ) : ℚ) / 65536 * 255 = (min v.toNat 65536 * 255 : ℕ) / (2 ^ 16 : ℕ) := by
    push_cast
    ring
  apply BitVec.eq_of_toNat_eq
  rw [byteQ_toNat, byteOf_toNat, clamp01_natCast_div, scaled, Int.floor_toNat, Nat.floor_div_eq_div]

/-! Packed words -/

theorem packGRB_bits_toNat (g r b : Byte) (k : Nat) :
    ((packGRB g r b).extractLsb' k 8).toNat = (g.toNat * 2 ^ 16 + r.toNat * 2 ^ 8 + b.toNat) / 2 ^ k % 2 ^ 8 := by
  rw [BitVec.extractLsb'_toNat, packGRB_toNat, Nat.shiftRight_eq_div_pow]

theorem packGRB_greenByte (g r b : Byte) : (packGRB g r b).extractLsb' 16 8 = g := by
  have := r.isLt; have := b.isLt
  exact BitVec.eq_of_toNat_eq (by rw [packGRB_bits_toNat]; omega)

theorem packGRB_redByte (g r b : Byte) : (packGRB g r b).extractLsb' 8 8 = r := by
  have := b.isLt
  exact BitVec.eq_of_toNat_eq (by rw [packGRB_bits_toNat]; omega)

theorem packGRB_blueByte (g r b : Byte) : (packGRB g r b).extractLsb' 0 8 = b :=
  BitVec.eq_of_toNat_eq (by rw [packGRB_bits_toNat]; omega)

theorem packGRB_eq_ofNat (g r b : Byte) :
    packGRB g r b = BitVec.ofNat 32 (g.toNat * 2 ^ 16 + r.toNat * 2 ^ 8 + b.toNat) := by
  rw [← packGRB_toNat, BitVec.ofNat_toNat, BitVec.setWidth_eq]

/-! The obligations -/

/-- Settles O19: within [0, 1] the byte is the floor, and outside it the clamp decides. -/
theorem channelByteIsClampedAndTruncated : Obligations.ChannelByteIsClampedAndTruncated := by
  intro c
  refine ⟨fun h0 h1 => ?_, fun h => byteOf_of_one_le h.le, fun h => byteOf_of_nonpos h.le⟩
  rw [byteOf_of_mem h0 h1]
  exact ⟨Nat.floor_le (by positivity), Nat.lt_floor_add_one _⟩

/-- Settles O20: an encoded colour is a packed word. -/
theorem encodedColourIsZeroGreenRedBlue : Obligations.EncodedColourIsZeroGreenRedBlue := fun _ _ _ =>
  ⟨packGRB_topByte _ _ _, packGRB_greenByte _ _ _, packGRB_redByte _ _ _, packGRB_blueByte _ _ _⟩

/-- Settles O21. -/
theorem portScalingEqualsExactScaling : Obligations.PortScalingEqualsExactScaling := fun v =>
  ⟨byteQ_toNat v, byteQ_eq_byteOf v⟩

/-- Settles O22: the bytes of the packed word are the scaled operands, and the event's word is of format C. -/
theorem encodeWritesOnlyItsPackedWord : Obligations.EncodeWritesOnlyItsPackedWord := by
  intro s g r b
  refine ⟨?_, encodeC_toNat 6 g r b⟩
  rw [exec, execEncode, packGRB_eq_ofNat, byteQ_toNat, byteQ_toNat, byteQ_toNat]

end Sys2Proof.Machine
end

section
/-! The matrix renderer (`42_matrix_renderer.md`): the serpentine map and its inverse (R58 to R60), the grid and its
words (R62), what FRAME and ACCEPT do (R63, R64), and a frame as a whole, moving (R65) and stalled (R66). -/

namespace Sys2Proof.Machine

/-! The serpentine map -/

/-- The row comes back by division, and mirroring the column of an even row twice restores it. -/
theorem phys_cell (k : Fin 25) : phys (cell k).1 (cell k).2 = k := by
  apply Fin.ext
  simp only [phys, cell]
  split <;> omega

theorem cell_phys (row col : Fin 5) : cell (phys row col) = (row, col) := by
  have rowBack : (cell (phys row col)).1 = row := by
    apply Fin.ext
    simp only [phys, cell]
    split <;> omega
  have parity : (4 - (phys row col).val / 5) % 2 = row.val % 2 := by
    rw [← congrArg Fin.val rowBack]
    rfl
  refine Prod.ext rowBack (Fin.ext ?_)
  simp only [cell, parity]
  simp only [phys]
  split <;> omega

/-! The grid -/

theorem compose_get (p : Params) (d : Fin 10) (row col : Fin 5) :
    ((compose p d).get row).get col = cellWord p (glyphRead p d row col) := by
  rw [compose, Vector.get_ofFn, Vector.get_ofFn]

/-! An ACCEPT during a frame -/

/-- At a position of a frame ACCEPT transfers that position's word and moves on, or ends the frame at the last one. -/
theorem exec_accept_position {s : State} (busy : s.frameBusy = true) (hd : s.frameDigit.toNat < 10)
    (hk : s.frameIdx.toNat < 25) :
    exec .accept s = .next { s with
      hist := s.hist ++ [pixelWord Config.built ⟨s.frameDigit.toNat, hd⟩ ⟨s.frameIdx.toNat, hk⟩]
      frameBusy := decide (s.frameIdx.toNat ≠ 24)
      frameIdx := BitVec.ofNat 5 (if s.frameIdx.toNat = 24 then 0 else s.frameIdx.toNat + 1) } := by
  rw [exec, execAccept, ← presentedWord_legal Config.built hd hk]
  rcases Nat.lt_or_eq_of_le (Nat.le_of_lt_succ hk) with before | last
  · have next : BitVec.ofNat 5 (s.frameIdx.toNat + 1) = s.frameIdx + 1 := by
      rw [BitVec.ofNat_add, BitVec.ofNat_toNat, BitVec.setWidth_eq]
      rfl
    have stays : decide (s.frameIdx.toNat ≠ 24) = s.frameBusy := (decide_eq_true before.ne).trans busy.symm
    rw [acceptWith_before_last _ busy hd before, if_neg before.ne, stays, next]
  · rw [acceptWith_last _ busy hd last, if_pos last, decide_eq_false (not_not_intro last)]
    rfl

theorem idxAfterAccept_last {s : State} (busy : s.frameBusy = true) (last : s.frameIdx.toNat = 24) :
    idxAfterAccept s = 0 := by
  simp [idxAfterAccept, busy, last]

theorem idxAfterAccept_toNat {s : State} (busy : s.frameBusy = true) (notLast : s.frameIdx.toNat ≠ 24)
    (fits : s.frameIdx.toNat < 31) : (idxAfterAccept s).toNat = s.frameIdx.toNat + 1 := by
  have one : (1 : IdxReg).toNat = 1 := rfl
  rw [idxAfterAccept, if_pos busy, if_neg notLast, if_neg fits.ne, BitVec.toNat_add, one]
  omega

/-! A stalled frame -/

theorem exec_next_same {i : Instr} {s t : State} (h : exec i s = .next t) {c : StateCell}
    (unmarked : c ∉ cellsWritten i.mnemonic) : c.same t s := by
  have same := stateAfter_exec_same i s unmarked
  rwa [stateAfter_of_exec (.inl h) s] at same

theorem exec_draw_of_ne_accept {i : Instr} (ne : i ≠ .accept) {s t : State} (h : exec i s = .next t) :
    t.draw = s.draw := by
  cases i with
  | edgeA ts =>
    rw [exec_edgeA] at h
    rw [← Host.Outcome.next.inj h]
    split <;> simp
  | edgeB ts =>
    rw [exec_edgeB] at h
    rw [← Host.Outcome.next.inj h]
    split <;> simp
  | tick ts =>
    rw [← Host.Outcome.next.inj h]
    split <;> rfl
  | frame =>
    rw [exec] at h
    rcases execFrame_cases s with ⟨-, e⟩ | ⟨-, -, e⟩ | ⟨-, -, e⟩ <;> rw [e] at h
    · rw [Host.Outcome.next.inj h]
    · exact nomatch h
    · rw [← Host.Outcome.next.inj h]
  | accept => exact absurd rfl ne
  | encode g r b => rw [← Host.Outcome.next.inj h]
  | reset => rw [← Host.Outcome.next.inj h]

/-- `t` is at the same point of a frame as `s`, with no word transferred or drawn in between. -/
structure State.SameFrame (t s : State) : Prop where
  frame : StateCell.frame.same t s
  hist : t.hist = s.hist
  draw : t.draw = s.draw

theorem State.SameFrame.refl (s : State) : s.SameFrame s := ⟨StateCell.same_refl _ s, rfl, rfl⟩

theorem State.SameFrame.trans {u t s : State} (h : u.SameFrame t) (h' : t.SameFrame s) : u.SameFrame s := by
  obtain ⟨⟨busy, idx, digit⟩, hist, draw⟩ := h
  obtain ⟨⟨busy', idx', digit'⟩, hist', draw'⟩ := h'
  exact ⟨⟨busy.trans busy', idx.trans idx', digit.trans digit'⟩, hist.trans hist', draw.trans draw'⟩

theorem State.SameFrame.outWordWith_eq {t s : State} (h : t.SameFrame s) (p : Params) :
    t.outWordWith p = s.outWordWith p := by
  obtain ⟨⟨busy, idx, digit⟩, -, draw⟩ := h
  rw [State.outWordWith, State.outWordWith, busy, presentedWord_congr p digit idx draw]

theorem leavesFrameStalled_iff (i : Instr) : leavesFrameStalled i = true ↔ i ≠ .accept ∧ i ≠ .reset := by
  simp [leavesFrameStalled]

/-- During a frame, a further FRAME is ignored, and the other events that stall it are not marked W for the frame. -/
theorem exec_sameFrame {i : Instr} (stalls : leavesFrameStalled i = true) {s t : State} (busy : s.frameBusy = true)
    (h : exec i s = .next t) : t.SameFrame s := by
  obtain ⟨neAccept, neReset⟩ := (leavesFrameStalled_iff i).mp stalls
  by_cases isFrame : i = .frame
  · subst isFrame
    rw [Host.Outcome.next.inj (h.symm.trans (execFrame_busy busy))]
    exact .refl s
  · have unmarked : StateCell.frame ∉ cellsWritten i.mnemonic := by
      cases i <;> simp_all [cellsWritten, Instr.mnemonic]
    exact ⟨exec_next_same h unmarked, exec_hist_of_ne_accept neAccept h, exec_draw_of_ne_accept neAccept h⟩

theorem execAll_sameFrame {is : List Instr} (stall : ∀ i ∈ is, leavesFrameStalled i = true) {s : State}
    (busy : s.frameBusy = true) : ∃ t, execAll is s = .next t ∧ t.SameFrame s := by
  induction is generalizing s with
  | nil => exact ⟨s, rfl, .refl s⟩
  | cons i is ih =>
    obtain ⟨stalls, rest⟩ := List.forall_mem_cons.mp stall
    obtain ⟨u, e⟩ := (everyEventCompletesButAFrameOnABadDigit i s).1 (.inr (.inl busy))
    have same := exec_sameFrame stalls busy e
    obtain ⟨t, run, same'⟩ := ih rest (same.frame.1.trans busy)
    exact ⟨t, (execAll_cons_next e).trans run, same'.trans same⟩

/-! A frame among other events -/

theorem exec_keeps_counter_digit {i : Instr} {s t : State} (digit : s.counter.toNat ≤ 9) (h : exec i s = .next t) :
    t.counter.toNat ≤ 9 := by
  cases i with
  | edgeA ts =>
    rw [exec_edgeA] at h
    rw [← Host.Outcome.next.inj h]
    split
    · exact digit
    · exact State.countUp_legal (by simpa using digit)
  | edgeB ts =>
    rw [exec_edgeB] at h
    rw [← Host.Outcome.next.inj h]
    split
    · exact digit
    · exact State.countDown_legal (by simpa using digit)
  | reset =>
    rw [← Host.Outcome.next.inj h]
    exact Nat.zero_le 9
  | tick | frame | accept | encode =>
    have same : t.counter = s.counter := exec_next_same (c := .counter) h (by simp [cellsWritten, Instr.mnemonic])
    rwa [same]

/-- The words of the first `n` positions of digit `d`. -/
def firstWords (d : Fin 10) (n : Nat) : List PixelWord := ((List.finRange 25).take n).map (pixelWord Config.built d)

theorem firstWords_succ (d : Fin 10) {n : Nat} (hn : n < 25) :
    firstWords d (n + 1) = firstWords d n ++ [pixelWord Config.built d ⟨n, hn⟩] := by
  rw [firstWords, List.take_succ_eq_append_getElem (by simpa using hn)]
  simp [firstWords]

/-- After `n` ACCEPTs of a frame of digit `d`, begun with the history `before`: the first `n` words have been
transferred, and before the 25th ACCEPT the frame stands at position `n`. The counter, a digit, keeps a later FRAME from
faulting. -/
structure State.AfterAccepts (before : List PixelWord) (d : Fin 10) (n : Nat) (t : State) : Prop where
  counter : t.counter.toNat ≤ 9
  hist : t.hist = before ++ firstWords d n
  inFlight : n < 25 → t.frameBusy = true ∧ t.frameIdx.toNat = n ∧ t.frameDigit.toNat = d

/-- An event other than ACCEPT and RESET leaves the frame at its position, and the history once the frame is over. -/
theorem State.AfterAccepts.stalled {before : List PixelWord} {d : Fin 10} {n : Nat} {t u : State}
    (h : t.AfterAccepts before d n) {i : Instr} (stalls : leavesFrameStalled i = true) (e : exec i t = .next u) :
    u.AfterAccepts before d n where
  counter := exec_keeps_counter_digit h.counter e
  hist := (exec_hist_of_ne_accept ((leavesFrameStalled_iff i).mp stalls).1 e).trans h.hist
  inFlight hn := by
    obtain ⟨busy, idx, digit⟩ := h.inFlight hn
    obtain ⟨busy', idx', digit'⟩ := (exec_sameFrame stalls busy e).frame
    exact ⟨busy'.trans busy, idx' ▸ idx, digit' ▸ digit⟩

/-- An ACCEPT before the 25th transfers the next word; the 25th also ends the frame. -/
theorem State.AfterAccepts.accept {before : List PixelWord} {d : Fin 10} {n : Nat} {t : State}
    (h : t.AfterAccepts before d n) (hn : n < 25) :
    ∃ u, exec .accept t = .next u ∧ u.AfterAccepts before d (n + 1) ∧
      (n = 24 → u.frameBusy = false ∧ u.frameIdx = 0) := by
  obtain ⟨busy, idx, digit⟩ := h.inFlight hn
  refine ⟨_, exec_accept_position busy (digit ▸ d.isLt) (idx ▸ hn), ⟨h.counter, ?_, fun hn' => ?_⟩, ?_⟩
  · simp only [h.hist, idx, digit, firstWords_succ d hn, List.append_assoc]
  · have notLast : n ≠ 24 := by omega
    refine ⟨decide_eq_true (idx ▸ notLast), ?_, digit⟩
    simp only [idx, notLast, if_false, BitVec.toNat_ofNat]
    exact Nat.mod_eq_of_lt (by omega)
  · rintro rfl
    simp [idx]

/-- By induction on the events, from the last one back: as many words have left as ACCEPTs came, and an ACCEPT that is
the last event and the 25th of its kind has ended the frame. -/
theorem execAll_frame_afterAccepts {s : State} (idle : s.frameBusy = false) (hd : s.counter.toNat < 10)
    {is : List Instr} (noReset : ∀ i ∈ is, i ≠ .reset) (few : acceptCount is ≤ 25) :
    ∃ t, execAll (.frame :: is) s = .next t ∧ t.AfterAccepts s.hist ⟨s.counter.toNat, hd⟩ (acceptCount is) ∧
      (acceptCount is = 25 → is.getLast? = some .accept → t.frameBusy = false ∧ t.frameIdx = 0) := by
  induction is using List.reverseRecOn with
  | nil =>
    refine ⟨_, execAll_cons_next (execFrame_start idle (Nat.le_of_lt_succ hd)), ?_, fun none => nomatch none⟩
    exact ⟨Nat.le_of_lt_succ hd, (List.append_nil _).symm, fun _ => ⟨rfl, rfl, rfl⟩⟩
  | append_singleton is i ih =>
    obtain ⟨noResetBefore, ne⟩ := List.forall_mem_append.mp noReset
    have neReset : i ≠ .reset := ne i (List.mem_singleton_self i)
    have count : acceptCount (is ++ [i]) = acceptCount is + acceptCount [i] := List.count_append
    obtain ⟨t, run, after, -⟩ := ih noResetBefore (by omega)
    have snoc {u : State} (e : exec i t = .next u) : execAll (.frame :: (is ++ [i])) s = .next u :=
      (execAll_append run).trans (execAll_cons_next e)
    by_cases isAccept : i = .accept
    · subst isAccept
      have one : acceptCount [.accept] = 1 := rfl
      rw [count, one] at few ⊢
      obtain ⟨u, e, after', ended⟩ := after.accept few
      exact ⟨u, snoc e, after', fun all _ => ended (by omega)⟩
    · have zero : acceptCount [i] = 0 := List.count_eq_zero.mpr (by simpa using Ne.symm isAccept)
      rw [count, zero]
      obtain ⟨u, e⟩ := (everyEventCompletesButAFrameOnABadDigit i t).1 (.inr (.inr after.counter))
      have after' := after.stalled ((leavesFrameStalled_iff i).mpr ⟨isAccept, neReset⟩) e
      refine ⟨u, snoc e, after', fun _ last => ?_⟩
      simp [isAccept] at last

/-! The obligations -/

/-- Settles O28: the presented word leaves, and a free value is counted as drawn. -/
theorem acceptOutsideTheLegalFrameRegisters : Obligations.AcceptOutsideTheLegalFrameRegisters := by
  intro s busy outside
  have illegal : ¬ s.frameLegal := by
    rintro ⟨hd, hk⟩
    omega
  refine ⟨idxAfterAccept s, ?_, idxAfterAccept_last busy, idxAfterAccept_toNat busy⟩
  rw [exec, execAccept, acceptWith_eq, busyAfterAccept, drawAfterAccept, State.outWord, State.outWordWith]
  simp only [busy, illegal, if_true, if_false]

/-- Settles O30: a frame after FRAME and its ACCEPTs, among any other events. -/
theorem frameTransfersItsWordsOnceInChainOrder : Obligations.FrameTransfersItsWordsOnceInChainOrder := by
  intro s is h idle noReset few
  obtain ⟨t, run, after, ended⟩ := execAll_frame_afterAccepts idle h noReset few
  refine ⟨t, run, after.hist, fun early => ?_, ended⟩
  obtain ⟨busy, idx, digit⟩ := after.inFlight early
  exact ⟨busy, idx, BitVec.eq_of_toNat_eq digit⟩

/-- Settles O31: each event of the list keeps the frame at the same point, and the presented word depends on no more. -/
theorem stalledFrameHoldsItsWord : Obligations.StalledFrameHoldsItsWord := by
  intro s is busy stall
  obtain ⟨t, run, same⟩ := execAll_sameFrame stall busy
  obtain ⟨sameBusy, idx, digit⟩ := same.frame
  exact ⟨t, run, sameBusy.trans busy, idx, digit, same.hist, same.outWordWith_eq⟩

/-- Settles O23: the printed sequences by computing them, the inverses for every position and cell. -/
theorem serpentineSequenceAndItsInverse : Obligations.SerpentineSequenceAndItsInverse :=
  ⟨by decide, by decide, phys_cell, cell_phys⟩

/-- Settles O25: the grid's cell is the cell word of its glyph bit. -/
theorem composedGridShowsTheGlyph : Obligations.ComposedGridShowsTheGlyph := by
  intro p d
  refine ⟨fun row col => ?_, fun k => (compose_get p d _ _).symm⟩
  rw [compose_get, glyphRead, glyphAddress]
  cases p.glyph.getLsbD (d.val * 25 + row.val * 5 + col.val) <;> rfl

/-- Settles O26: the three cases of FRAME, and that a frame starts at position 0 of the counter's digit. -/
theorem frameIsIgnoredFaultsOrStarts : Obligations.FrameIsIgnoredFaultsOrStarts := by
  intro s
  refine ⟨execFrame_busy, execFrame_fault, execFrame_start, fun p h idle => ?_, rfl⟩
  refine ⟨_, execFrame_start idle (Nat.le_of_lt_succ h), rfl, ?_⟩
  exact presentedWord_legal (s := { s with frameDigit := s.counter, frameIdx := 0, frameBusy := true }) p h
    (Nat.zero_lt_succ 24)

/-- Settles O27: an idle ACCEPT does nothing, and one during a frame moves the word of its position. -/
theorem acceptTransfersTheWordOfItsPosition : Obligations.AcceptTransfersTheWordOfItsPosition := fun _ =>
  ⟨fun idle => congrArg _ (acceptWith_idle _ idle), fun hd hk busy => exec_accept_position busy hd hk, rfl⟩

end Sys2Proof.Machine
end

section
/-! The digit compositor (`43_digit_compositor.md`): a cell's word is its colour encoded (R67, R68), and in a legal state
nothing faults or draws a free value (R70). -/

namespace Sys2Proof.Machine

/-! A cell's colour, encoded -/

/-- A level of 0..255 scaled to [0, 1] and back is itself: no clamp acts and the truncation drops nothing. -/
theorem byteOf_natCast_div (v : Byte) : byteOf ((v.toNat : ℚ) / 255) = v := by
  have le : (v.toNat : ℚ) ≤ 255 := by exact_mod_cast Nat.le_of_lt_succ v.isLt
  have le_one : (v.toNat : ℚ) / 255 ≤ 1 := (div_le_one (by norm_num)).mpr le
  apply BitVec.eq_of_toNat_eq
  rw [byteOf_of_mem (by positivity) le_one, div_mul_cancel₀ _ (by norm_num), Nat.floor_natCast]

theorem byteOf_zero : byteOf 0 = 0 := BitVec.eq_of_toNat_eq (byteOf_of_nonpos le_rfl)

theorem cellColour_eq (p : Params) (on : Bool) :
    cellColour p on = { red := if on then (p.brightness.toNat : ℚ) / 255 else 0, green := 0, blue := 0 } := by
  cases on <;> rfl

theorem cellWord_eq_packGRB (p : Params) (on : Bool) : cellWord p on = packGRB 0 (if on then p.brightness else 0) 0 := by
  cases on with
  | false => rw [cellWord_off, if_neg Bool.false_ne_true]; decide
  | true => exact BitVec.eq_of_toNat_eq (by simp [cellWord_on_toNat, packGRB_toNat])

/-! Events in a legal state -/

theorem State.Legal.exec_ne_fault {s : State} (h : s.Legal) (i : Instr) (f : Fault) : exec i s ≠ .fault f := by
  obtain ⟨t, e, -⟩ := exec_next_legal i h
  rw [e]
  exact nofun

/-- ACCEPT alone draws, and from legal frame registers it does not. -/
theorem State.Legal.exec_draw {s : State} (h : s.Legal) {i : Instr} {t : State} (e : exec i s = .next t) :
    t.draw = s.draw := by
  by_cases isAccept : i = .accept
  · subst isAccept
    rw [← Host.Outcome.next.inj e, acceptWith_eq, drawAfterAccept, if_pos h.frameLegal, ite_self]
  · exact exec_draw_of_ne_accept isAccept e

/-! The obligations -/

/-- Settles O24: the word packs BRIGHTNESS or 0 as the red byte, and that byte is the scaled red channel of the colour. -/
theorem cellWordIsTheEncodedCellColour : Obligations.CellWordIsTheEncodedCellColour := by
  intro p
  refine ⟨cellWord_on_toNat p, cellWord_off p, cellColour_eq p, fun on => ?_⟩
  rw [cellWord_eq_packGRB, cellColour_eq, encodeColour, byteOf_zero]
  cases on with
  | false => rw [if_neg Bool.false_ne_true, if_neg Bool.false_ne_true, byteOf_zero]
  | true => rw [if_pos rfl, if_pos rfl, byteOf_natCast_div]

/-- Settles O48: a step waits or runs an event, and the state that event meets is legal too. -/
theorem legalStateNeverFaults : Obligations.LegalStateNeverFaults := by
  intro s legal
  refine ⟨fun f h => ?_, fun t h => ?_⟩
  · obtain ⟨w, rest, i, -, -, e⟩ := step_fault_cases h
    exact (legal_withEvents rest legal).exec_ne_fault i f e
  · rcases step_next_cases h with ⟨-, rfl⟩ | ⟨w, rest, i, -, -, e⟩
    · exact ⟨rfl, rfl⟩
    · exact ⟨(exec_next_fault e).trans (State.withEvents_fault s rest), (legal_withEvents rest legal).exec_draw e⟩

end Sys2Proof.Machine
end

section
/-! The input debouncer (`44_input_debouncer.md`): elapsed time between stamps (R72), the phases of a button and its
window test (R71, R73, R74), what an edge does (R75, R76), and a train of edges (C4). -/

namespace Sys2Proof.Machine

/-! Elapsed time -/

/-- The wrapped difference of two stamps as a number; how far apart the real times are decides what it shows of them. -/
theorem elapsed_stampAt_toNat (t0 t : Nat) :
    (elapsed (stampAt t) (stampAt t0)).toNat = (2 ^ 32 - t0 % 2 ^ 32 + t) % 2 ^ 32 := by
  rw [elapsed, stampAt, stampAt, BitVec.toNat_sub, BitVec.toNat_ofNat, BitVec.toNat_ofNat, Nat.add_mod_mod]

theorem elapsed_stampAt_of_le {t0 t : Nat} (le : t0 ≤ t) (near : t - t0 < 2 ^ 32) :
    (elapsed (stampAt t) (stampAt t0)).toNat = t - t0 := by
  rw [elapsed_stampAt_toNat]
  omega

theorem msBetween_stampAt_le {t0 t n : Nat} (within : t0 ≤ t ∧ t ≤ t0 + n) (small : n < 2 ^ 32) :
    msBetween (stampAt t0) (stampAt t) ≤ n := by
  rw [← elapsed_toNat, elapsed_stampAt_of_le within.1 (by omega)]
  omega

theorem msBetween_self (t : Timestamp) : msBetween t t = 0 := by
  rw [msBetween, Nat.add_sub_cancel_left, Nat.mod_self]

/-! The phases of a button and the window test -/

/-- The phase of a button, and what it says of the button's last accepted edge. -/
theorem phase_cases (s : State) (x : Button) (t : Timestamp) :
    (s.phase x t = .idleNeverTriggered ∧ s.seen x = false) ∨
    (s.phase x t = .recentlyTriggered ∧ s.seen x = true ∧ msBetween (s.last x) t ≤ 400) ∨
    (s.phase x t = .idleWindowExpired ∧ s.seen x = true ∧ 400 < msBetween (s.last x) t) := by
  rw [State.phase, elapsed_toNat, Config.debounceWindow]
  cases s.seen x with
  | false => exact .inl ⟨if_pos rfl, rfl⟩
  | true =>
    rw [if_neg Bool.false_ne_true.symm]
    rcases Nat.lt_or_ge 400 (msBetween (s.last x) t) with expired | recent
    · exact .inr (.inr ⟨if_neg expired.not_ge, rfl, expired⟩)
    · exact .inr (.inl ⟨if_pos recent, rfl, recent⟩)

theorem phase_eq_idleNeverTriggered_iff (s : State) (x : Button) (t : Timestamp) :
    s.phase x t = .idleNeverTriggered ↔ s.seen x = false := by
  rcases phase_cases s x t with ⟨phase, seen⟩ | ⟨phase, seen, _⟩ | ⟨phase, seen, _⟩ <;> simp [phase, seen]

theorem phase_eq_recentlyTriggered_iff (s : State) (x : Button) (t : Timestamp) :
    s.phase x t = .recentlyTriggered ↔ s.seen x = true ∧ msBetween (s.last x) t ≤ 400 := by
  rcases phase_cases s x t with ⟨phase, seen⟩ | ⟨phase, seen, recent⟩ | ⟨phase, seen, expired⟩
  · simp [phase, seen]
  · simp [phase, seen, recent]
  · simp [phase, seen, expired]

theorem phase_eq_idleWindowExpired_iff (s : State) (x : Button) (t : Timestamp) :
    s.phase x t = .idleWindowExpired ↔ s.seen x = true ∧ 400 < msBetween (s.last x) t := by
  rcases phase_cases s x t with ⟨phase, seen⟩ | ⟨phase, seen, recent⟩ | ⟨phase, seen, expired⟩
  · simp [phase, seen]
  · simp [phase, seen, recent]
  · simp [phase, seen, expired]

/-- The window test asks for the phase in which the button is recently triggered. -/
theorem edgeVerdict_eq (s : State) (x : Button) (t : Timestamp) :
    s.edgeVerdict x t = if s.phase x t = .recentlyTriggered then .discarded else .accepted := by
  simp only [State.edgeVerdict, elapsed_toNat, Config.debounceWindow, phase_eq_recentlyTriggered_iff]

theorem debounce_of_recent {s : State} {x : Button} {t : Timestamp} (recent : s.phase x t = .recentlyTriggered) :
    debounce x t s = (.discarded, s) := by
  rw [debounce, edgeVerdict_eq, if_pos recent]

theorem debounce_of_not_recent {s : State} {x : Button} {t : Timestamp} (idle : s.phase x t ≠ .recentlyTriggered) :
    debounce x t s = (.accepted, s.markAccepted x t) := by
  rw [debounce, edgeVerdict_eq, if_neg idle]

theorem markAccepted_phase (s : State) (x : Button) (t : Timestamp) :
    (s.markAccepted x t).phase x t = .recentlyTriggered := by
  rw [phase_eq_recentlyTriggered_iff, State.markAccepted_seen, State.markAccepted_last, msBetween_self]
  exact ⟨rfl, Nat.zero_le 400⟩

/-! The edges -/

/-- The counter one up as a number (`44_input_debouncer.md` R75). -/
theorem countUp_eq_ofNat (s : State) : s.countUp = { s with
    counter := BitVec.ofNat 4 (if s.counter.toNat < 9 then s.counter.toNat + 1 else s.counter.toNat) } := by
  rw [← State.countUp_counter, BitVec.ofNat_toNat, BitVec.setWidth_eq, ← State.countUp_eq]

/-- The counter one down as a number (`44_input_debouncer.md` R76). -/
theorem countDown_eq_ofNat (s : State) : s.countDown = { s with counter := BitVec.ofNat 4 (s.counter.toNat - 1) } := by
  rw [← State.countDown_counter, BitVec.ofNat_toNat, BitVec.setWidth_eq, ← State.countDown_eq]

/-- A button never triggered, or whose window has passed, was not triggered recently. -/
theorem not_recent_of_fresh {seen : Bool} {ms : Nat} (fresh : seen = false ∨ 400 < ms) :
    ¬ (seen = true ∧ ms ≤ 400) := by
  rintro ⟨rfl, le⟩
  exact fresh.elim nofun le.not_gt

theorem exec_edgeA_discarded {s : State} {ts : Timestamp} (seen : s.seenA = true)
    (recent : msBetween s.lastA ts ≤ 400) : exec (.edgeA ts) s = .next s := by
  rw [exec_edgeA, if_pos ⟨seen, recent⟩]

theorem exec_edgeB_discarded {s : State} {ts : Timestamp} (seen : s.seenB = true)
    (recent : msBetween s.lastB ts ≤ 400) : exec (.edgeB ts) s = .next s := by
  rw [exec_edgeB, if_pos ⟨seen, recent⟩]

theorem exec_edgeA_accepted {s : State} {ts : Timestamp} (fresh : s.seenA = false ∨ 400 < msBetween s.lastA ts) :
    exec (.edgeA ts) s = .next { s with
      seenA := true, lastA := ts
      counter := BitVec.ofNat 4 (if s.counter.toNat < 9 then s.counter.toNat + 1 else s.counter.toNat) } := by
  rw [exec_edgeA, if_neg (not_recent_of_fresh fresh), countUp_eq_ofNat]
  rfl

theorem exec_edgeB_accepted {s : State} {ts : Timestamp} (fresh : s.seenB = false ∨ 400 < msBetween s.lastB ts) :
    exec (.edgeB ts) s = .next { s with
      seenB := true, lastB := ts, counter := BitVec.ofNat 4 (s.counter.toNat - 1) } := by
  rw [exec_edgeB, if_neg (not_recent_of_fresh fresh), countDown_eq_ofNat]
  rfl

/-! Trains of edges -/

theorem execAll_of_forall_exec_self {is : List Instr} {s : State} (still : ∀ i ∈ is, exec i s = .next s) :
    execAll is s = .next s := by
  induction is with
  | nil => rfl
  | cons i is ih =>
    rw [execAll_cons_next (still i List.mem_cons_self)]
    exact ih fun j mem => still j (List.mem_cons_of_mem i mem)

/-- A train whose first edge leads to a state that discards the later ones ends in that state. -/
theorem execAll_train {event : Timestamp → Instr} {t0 : Nat} {later : List Nat} {s u : State}
    (first : exec (event (stampAt t0)) s = .next u) (discards : ∀ t ∈ later, exec (event (stampAt t)) u = .next u) :
    execAll ((t0 :: later).map fun t => event (stampAt t)) s = .next u :=
  (execAll_cons_next first).trans (execAll_of_forall_exec_self (List.forall_mem_map.mpr discards))

/-! The obligations -/

/-- Settles O38: the first edge is accepted and kept, and against its time every later one is within the window. -/
theorem onlyTheFirstEdgeOfATrainCounts : Obligations.OnlyTheFirstEdgeOfATrainCounts := by
  intro s t0 later within
  have recent (t : Nat) (mem : t ∈ later) : msBetween (stampAt t0) (stampAt t) ≤ 400 :=
    msBetween_stampAt_le (within t mem) (by decide)
  refine ⟨fun unseen below => ?_, fun unseen _ => ?_⟩
  · have first := exec_edgeA_accepted (ts := stampAt t0) (.inl unseen)
    rw [if_pos below] at first
    exact execAll_train first fun t mem => exec_edgeA_discarded rfl (recent t mem)
  · exact execAll_train (exec_edgeB_accepted (.inl unseen)) fun t mem => exec_edgeB_discarded rfl (recent t mem)

/-- Settles O35. -/
theorem edgeOnLineACountsUpOrIsDiscarded : Obligations.EdgeOnLineACountsUpOrIsDiscarded := fun _ ts =>
  ⟨exec_edgeA_discarded, exec_edgeA_accepted, encodeT_toNat 1 ts⟩

/-- Settles O36. -/
theorem edgeOnLineBCountsDownOrIsDiscarded : Obligations.EdgeOnLineBCountsDownOrIsDiscarded := fun _ ts =>
  ⟨exec_edgeB_discarded, exec_edgeB_accepted, encodeT_toNat 2 ts⟩

/-- Settles O37. -/
theorem edgeIsDiscardedExactlyWhenRecentlyTriggered : Obligations.EdgeIsDiscardedExactlyWhenRecentlyTriggered :=
  fun s x t => ⟨phase_eq_idleNeverTriggered_iff s x t, phase_eq_recentlyTriggered_iff s x t,
    phase_eq_idleWindowExpired_iff s x t, debounce_of_recent,
    fun idle => ⟨debounce_of_not_recent idle, markAccepted_phase s x t, State.markAccepted_last s x t⟩⟩

/-- Settles O39: the wrapped difference as a number, in each of the three ranges. -/
theorem elapsedTimeIsRealTimeAcrossAWrap : Obligations.ElapsedTimeIsRealTimeAcrossAWrap := by
  refine ⟨fun t0 t => elapsed_stampAt_of_le, fun t0 e wrapped => ?_, fun t0 t before noWrap => ?_⟩
  · rw [elapsed_stampAt_toNat]
    omega
  · rw [elapsed_stampAt_toNat]
    omega

end Sys2Proof.Machine
end

section
/-! The heartbeat (`45_heartbeat.md`): the two cases of a TICK, and ticks in a row (R77). -/

namespace Sys2Proof.Machine

theorem exec_tick_due {s : State} {ts : Timestamp} (due : 100 < msBetween s.hbLast ts) :
    exec (.tick ts) s = .next { s with hbFlag := !s.hbFlag, hbLast := ts } := by
  rw [exec_tick, if_pos due]

theorem exec_tick_early {s : State} {ts : Timestamp} (early : msBetween s.hbLast ts ≤ 100) :
    exec (.tick ts) s = .next s := by
  rw [exec_tick, if_neg early.not_gt]

/-- Early ticks leave `hbLast` as it is, so each is measured from the same last toggle. -/
theorem execAll_ticks_early {s : State} {early : List Timestamp} (within : ∀ ts ∈ early, msBetween s.hbLast ts ≤ 100) :
    execAll (early.map .tick) s = .next s :=
  execAll_of_forall_exec_self (List.forall_mem_map.mpr fun ts mem => exec_tick_early (within ts mem))

/-! The obligations -/

/-- Settles O42: the late tick meets the state, and so the last toggle, that the early ones met. -/
theorem heartbeatPeriodRunsFromTheLastToggle : Obligations.HeartbeatPeriodRunsFromTheLastToggle := by
  intro s early late within due
  have still := execAll_ticks_early within
  have toggled : execAll [.tick late] s = .next { s with hbFlag := !s.hbFlag, hbLast := late } :=
    execAll_cons_next (exec_tick_due due)
  exact ⟨still, (execAll_append still).trans toggled⟩

/-- Settles O41. -/
theorem tickTogglesAfterMoreThanHundredMs : Obligations.TickTogglesAfterMoreThanHundredMs := fun _ ts =>
  ⟨exec_tick_due, exec_tick_early, encodeT_toNat 3 ts⟩

end Sys2Proof.Machine
end

section
/-! Events among events (`60_exceptions.md`): one between two ACCEPTs (R82), two presses at one instant (R84), and who
gives which event (R89). -/

namespace Sys2Proof.Machine

/-! The other units' state and ACCEPT: neither sees or disturbs the other -/

@[simp] theorem acceptWith_counter (p : Params) (s : State) : (acceptWith p s).counter = s.counter := by
  rw [acceptWith_eq]

@[simp] theorem acceptWith_hbLast (p : Params) (s : State) : (acceptWith p s).hbLast = s.hbLast := by
  rw [acceptWith_eq]

@[simp] theorem acceptWith_buttonSeen (p : Params) (s : State) (x : Button) : (acceptWith p s).seen x = s.seen x := by
  rw [acceptWith_eq]; cases x <;> rfl

@[simp] theorem acceptWith_buttonLast (p : Params) (s : State) (x : Button) : (acceptWith p s).last x = s.last x := by
  rw [acceptWith_eq]; cases x <;> rfl

theorem acceptWith_setCounter (p : Params) (s : State) (c : DigitReg) :
    acceptWith p { s with counter := c } = { acceptWith p s with counter := c } := by
  rw [acceptWith_eq, acceptWith_eq]; rfl

theorem acceptWith_setHeartbeat (p : Params) (s : State) (ts : Timestamp) :
    acceptWith p { s with hbFlag := !s.hbFlag, hbLast := ts } =
      { acceptWith p s with hbFlag := !(acceptWith p s).hbFlag, hbLast := ts } := by
  rw [acceptWith_eq, acceptWith_eq]; rfl

theorem acceptWith_setEncWord (p : Params) (s : State) (w : PixelWord) :
    acceptWith p { s with encWord := w } = { acceptWith p s with encWord := w } := by
  rw [acceptWith_eq, acceptWith_eq]; rfl

theorem acceptWith_markAccepted (p : Params) (s : State) (x : Button) (t : Timestamp) :
    acceptWith p (s.markAccepted x t) = (acceptWith p s).markAccepted x t := by
  rw [acceptWith_eq, acceptWith_eq]; cases x <;> rfl

theorem acceptWith_countUp (p : Params) (s : State) : acceptWith p s.countUp = (acceptWith p s).countUp := by
  rw [State.countUp, State.countUp, acceptWith_counter]
  split
  · exact acceptWith_setCounter p s _
  · rfl

theorem acceptWith_countDown (p : Params) (s : State) : acceptWith p s.countDown = (acceptWith p s).countDown := by
  rw [State.countDown, State.countDown, acceptWith_counter]
  split
  · exact acceptWith_setCounter p s _
  · rfl

/-- The window test does not see an ACCEPT, so an edge commutes with it where its effect does. -/
theorem acceptWith_edge (p : Params) (x : Button) {effect : State → State}
    (comm : ∀ u : State, acceptWith p (effect u) = effect (acceptWith p u)) (t : Timestamp) (s : State) :
    acceptWith p (edge x effect t s) = edge x effect t (acceptWith p s) := by
  rw [edge_eq, edge_eq, acceptWith_buttonSeen, acceptWith_buttonLast]
  split
  · rfl
  · rw [comm, acceptWith_markAccepted]

theorem execAll_accept_comm {i : Instr} {f : State → State} (runs : ∀ s, exec i s = .next (f s)) {s : State}
    (comm : acceptWith Config.built (f s) = f (acceptWith Config.built s)) :
    execAll [i, .accept] s = execAll [.accept, i] s :=
  calc execAll [i, .accept] s
      = .next (acceptWith Config.built (f s)) := execAll_cons_next (runs s)
    _ = .next (f (acceptWith Config.built s)) := by rw [comm]
    _ = execAll [i] (acceptWith Config.built s) := (execAll_cons_next (is := []) (runs _)).symm
    _ = execAll [.accept, i] s := (execAll_cons_next rfl).symm

/-! Two presses, both outside their windows -/

/-- Accepting A leaves B's window as it was, so B is accepted too. -/
theorem execAll_edgeA_edgeB {s : State} {ta tb : Timestamp} (freshA : s.seenA = false ∨ 400 < msBetween s.lastA ta)
    (freshB : s.seenB = false ∨ 400 < msBetween s.lastB tb) :
    execAll [.edgeA ta, .edgeB tb] s = .next ((s.markAccepted .a ta).countUp.markAccepted .b tb).countDown := by
  have first : exec (.edgeA ta) s = .next (s.markAccepted .a ta).countUp := by
    rw [exec_edgeA, if_neg (not_recent_of_fresh freshA)]
  rw [execAll_cons_next first]
  apply execAll_cons_next
  rw [exec_edgeB, if_neg (not_recent_of_fresh (by simpa using freshB))]

/-- Accepting B leaves A's window as it was, so A is accepted too. -/
theorem execAll_edgeB_edgeA {s : State} {ta tb : Timestamp} (freshA : s.seenA = false ∨ 400 < msBetween s.lastA ta)
    (freshB : s.seenB = false ∨ 400 < msBetween s.lastB tb) :
    execAll [.edgeB tb, .edgeA ta] s = .next ((s.markAccepted .b tb).countDown.markAccepted .a ta).countUp := by
  have first : exec (.edgeB tb) s = .next (s.markAccepted .b tb).countDown := by
    rw [exec_edgeB, if_neg (not_recent_of_fresh freshB)]
  rw [execAll_cons_next first]
  apply execAll_cons_next
  rw [exec_edgeA, if_neg (not_recent_of_fresh (by simpa using freshA))]

/-- The counter after A then B: only the step up can be lost. -/
theorem counter_after_edgeA_edgeB (s : State) (ta tb : Timestamp) :
    ((s.markAccepted .a ta).countUp.markAccepted .b tb).countDown.counter.toNat =
      (if s.counter.toNat < 9 then s.counter.toNat + 1 else s.counter.toNat) - 1 := by
  rw [State.countDown_counter, State.markAccepted_counter, State.countUp_counter, State.markAccepted_counter]

/-- The counter after B then A, from a digit above 0: neither step is lost. -/
theorem counter_after_edgeB_edgeA {s : State} (pos : 0 < s.counter.toNat) (digit : s.counter.toNat ≤ 9)
    (ta tb : Timestamp) :
    ((s.markAccepted .b tb).countDown.markAccepted .a ta).countUp.counter.toNat = s.counter.toNat := by
  rw [State.countUp_counter, State.markAccepted_counter, State.countDown_counter, State.markAccepted_counter,
    if_pos (by omega)]
  omega

/-! The agents -/

/-- The agent of the table's row in which an event stands (`60_exceptions.md` R89). -/
def giverOf : Mnemonic → Agent
  | .edgeA => .buttonLineA
  | .edgeB => .buttonLineB
  | .tick => .tickSource
  | .frame => .frameRequester
  | .accept => .transport
  | .encode => .host
  | .reset => .host

theorem gives_iff_eq_giverOf (agent : Agent) (m : Mnemonic) : agent.gives m = true ↔ agent = giverOf m := by
  cases m <;> cases agent <;> simp [Agent.gives, giverOf]

/-! The obligations -/

/-- Settles O32: an edge, a TICK and an ENCODE each complete, with an update that commutes with that of ACCEPT. -/
theorem otherUnitsEventsCommuteWithAccept : Obligations.OtherUnitsEventsCommuteWithAccept := by
  intro i s notFrame notReset
  cases i with
  | edgeA ts => exact execAll_accept_comm (fun _ => rfl) (acceptWith_edge _ .a (acceptWith_countUp _) ts s)
  | edgeB ts => exact execAll_accept_comm (fun _ => rfl) (acceptWith_edge _ .b (acceptWith_countDown _) ts s)
  | tick ts =>
    refine execAll_accept_comm (exec_tick ts) ?_
    rw [acceptWith_hbLast]
    split
    · exact acceptWith_setHeartbeat _ s ts
    · rfl
  | frame => exact absurd rfl notFrame
  | accept => rfl
  | encode g r b => exact execAll_accept_comm (fun _ => rfl) (acceptWith_setEncWord _ s _)
  | reset => exact absurd rfl notReset

/-- Settles O40: both presses are accepted in either order; at 9 the step up is lost if it comes first, and strictly
between the bounds no step is lost. -/
theorem orderOfSimultaneousPressesShowsOnlyAtABound : Obligations.OrderOfSimultaneousPressesShowsOnlyAtABound := by
  intro s ta tb freshA freshB
  have runAB := execAll_edgeA_edgeB freshA freshB
  have runBA := execAll_edgeB_edgeA freshA freshB
  refine ⟨fun nine => ⟨⟨_, runAB, ?_⟩, ⟨_, runBA, ?_⟩⟩, fun pos below is order => ?_⟩
  · rw [counter_after_edgeA_edgeB, nine]; rfl
  · rw [counter_after_edgeB_edgeA (by omega) nine.le, nine]
  · rcases List.perm_pair.mp order with rfl | rfl
    · refine ⟨_, runAB, BitVec.eq_of_toNat_eq ?_, by simp, by simp⟩
      rw [counter_after_edgeA_edgeB, if_pos below, Nat.add_sub_cancel]
    · exact ⟨_, runBA, BitVec.eq_of_toNat_eq (counter_after_edgeB_edgeA pos below.le ta tb), by simp, by simp⟩

/-- Settles O52. -/
theorem eachEventHasOneGivingAgent : Obligations.EachEventHasOneGivingAgent := by
  refine ⟨fun m => ⟨giverOf m, ?_, fun other => (gives_iff_eq_giverOf other m).mp⟩, fun m => ?_⟩
  · exact (gives_iff_eq_giverOf _ m).mpr rfl
  · simp [Agent.gives]

end Sys2Proof.Machine
end

section
/-! Reset and hazards (`70_reset_and_hazards.md`): an empty sequence leaves the block waiting (R93), and RESET forgets both
buttons' last edges and the frame in flight (R94). -/

namespace Sys2Proof.Machine

/-! An idle frame -/

/-- With no frame in flight, no event but FRAME starts one or lets a word leave: an ACCEPT finds nothing valid, RESET clears
the frame again, and the other events are not marked W for the frame. -/
theorem exec_idle_of_ne_frame {i : Instr} (ne : i ≠ .frame) {s t : State} (idle : s.frameBusy = false)
    (h : exec i s = .next t) : t.hist = s.hist ∧ t.frameBusy = false := by
  cases i with
  | frame => exact absurd rfl ne
  | accept =>
    obtain rfl : acceptWith Config.built s = t := Host.Outcome.next.inj h
    rw [acceptWith_idle _ idle]
    exact ⟨rfl, idle⟩
  | reset =>
    rw [← Host.Outcome.next.inj h]
    exact ⟨rfl, rfl⟩
  | edgeA | edgeB | tick | encode =>
    have same : StateCell.frame.same t s := exec_next_same h (by simp [cellsWritten, Instr.mnemonic])
    exact ⟨exec_hist_of_ne_accept (by nofun) h, same.1.trans idle⟩

theorem execAll_idle_of_ne_frame {is : List Instr} (noFrame : ∀ i ∈ is, i ≠ .frame) {s : State}
    (idle : s.frameBusy = false) : ∃ t, execAll is s = .next t ∧ t.hist = s.hist ∧ t.frameBusy = false := by
  induction is generalizing s with
  | nil => exact ⟨s, rfl, rfl, idle⟩
  | cons i is ih =>
    obtain ⟨ne, rest⟩ := List.forall_mem_cons.mp noFrame
    obtain ⟨u, e⟩ := exec_next_of_ne_frame ne s
    obtain ⟨kept, idle'⟩ := exec_idle_of_ne_frame ne idle e
    obtain ⟨t, run, kept', idle''⟩ := ih rest idle'
    exact ⟨t, (execAll_cons_next e).trans run, kept'.trans kept, idle''⟩

/-! The obligations -/

/-- Settles O45: RESET leaves both buttons unseen and the frame idle, so the next edge is fresh at any time and every event
but FRAME keeps the frame idle. -/
theorem resetRearmsButtonsAndAbandonsTheFrame : Obligations.ResetRearmsButtonsAndAbandonsTheFrame := by
  intro s
  obtain ⟨-, resets, -⟩ := powerOnAndResetGiveTheResetValues
  refine ⟨fun ts => ?_, fun ts => ?_, fun is noFrame => ?_⟩
  · exact ⟨_, (execAll_cons_next (resets s)).trans (execAll_cons_next (exec_edgeA_accepted (.inl rfl))), rfl, rfl, rfl⟩
  · exact ⟨_, (execAll_cons_next (resets s)).trans (execAll_cons_next (exec_edgeB_accepted (.inl rfl))), rfl, rfl, rfl⟩
  · rw [execAll_cons_next (resets s)]
    exact execAll_idle_of_ne_frame noFrame rfl

/-- Settles O15: with no word to take, the step has no event to run. -/
theorem stepWithoutAnEventWaits : Obligations.StepWithoutAnEventWaits := by
  intro s empty
  simp [step, takeEvent, empty]

end Sys2Proof.Machine
end

section
/-! The printed examples (`30_encoding.md` section 4). A word spells an event exactly when it is the event's own word, so each
example is read from the encoder: the event beside the printed word encodes to that word. -/

namespace Sys2Proof

/-- Settles O7: each printed word is the one the encoder gives for the event beside it. -/
theorem printedExampleWordsDecode : Obligations.PrintedExampleWordsDecode := by
  simp only [Obligations.PrintedExampleWordsDecode, decode_eq_event_iff]
  decide

end Sys2Proof
end
